-- ==== Sys2Proof/Word.lean ====
section
/-! DEFINITION. The machine's words, under the spec's names (00_scope.md R6, R8, R9). Every value is unsigned. -/

namespace Sys2Proof

/-- An 8-bit value: a general register, a timer, a byte of memory. -/
abbrev Byte := BitVec 8

/-- A 16-bit value: `pc`, `I`, a stack entry, an opcode. -/
abbrev Word := BitVec 16

/-- A register index 0x0..0xF, always a 4-bit field of an opcode (10_state.md R22). -/
abbrev Reg := Fin 16

/-- The key-state input: bit k is `KEY[k]` (10_state.md R33). -/
abbrev Keys := BitVec 16

/-- One glyph of the font: five sprite rows (10_state.md R37). -/
abbrev Glyph := Vector Byte 5

/-- The display: 32 rows of 64 one-bit pixels; bit c of row r is `PIX[c][r]` (10_state.md R31). -/
abbrev Pix := Vector (BitVec 64) 32

end Sys2Proof
end

