-- ==== Sys2Proof/Syntax.lean ====
section
/-! DEFINITION. The instructions: one constructor per row of spec/opcode_table.json, in the table's order, with the
operands of 30_encoding.md R85. A field that an instruction ignores (30_encoding.md R83) is no operand, but `NoOp`
keeps its `nnn`, which the table lists (DESIGN CHOICE, log 13; safe). -/

namespace Sys2Proof

/-- An instruction of the block (30_encoding.md R85). -/
inductive Instr where
  /-- 00E0 -/
  | clear
  /-- 00EE -/
  | ret
  /-- 0nnn, nnn other than 0x0E0 and 0x0EE -/
  | noOp (nnn : BitVec 12)
  /-- 1nnn -/
  | jump (nnn : BitVec 12)
  /-- 2nnn -/
  | call (nnn : BitVec 12)
  /-- 3xnn -/
  | skipEqRegVal (x : Reg) (nn : Byte)
  /-- 4xnn -/
  | skipNeqRegVal (x : Reg) (nn : Byte)
  /-- 5xy- -/
  | skipEqRegReg (x y : Reg)
  /-- 6xnn -/
  | setRegVal (x : Reg) (nn : Byte)
  /-- 7xnn -/
  | addRegVal (x : Reg) (nn : Byte)
  /-- 8xy0 -/
  | setRegReg (x y : Reg)
  /-- 8xy1 -/
  | orRegReg (x y : Reg)
  /-- 8xy2 -/
  | andRegReg (x y : Reg)
  /-- 8xy3 -/
  | xorRegReg (x y : Reg)
  /-- 8xy4 -/
  | addRegReg (x y : Reg)
  /-- 8xy5 -/
  | subRegReg (x y : Reg)
  /-- 8x-6 -/
  | shiftRight (x : Reg)
  /-- 8xy7 -/
  | subReverseRegReg (x y : Reg)
  /-- 8x-E -/
  | shiftLeft (x : Reg)
  /-- 9xy- -/
  | skipNeqRegReg (x y : Reg)
  /-- Annn -/
  | setI (nnn : BitVec 12)
  /-- Bnnn -/
  | jumpOffset (nnn : BitVec 12)
  /-- Cxnn -/
  | setRegRand (x : Reg) (nn : Byte)
  /-- Dxyn -/
  | draw (x y : Reg) (n : Fin 16)
  /-- Ex9E -/
  | skipKeyPressed (x : Reg)
  /-- ExA1 -/
  | skipKeyNotPressed (x : Reg)
  /-- Fx07 -/
  | setRegDelay (x : Reg)
  /-- Fx0A -/
  | setRegKey (x : Reg)
  /-- Fx15 -/
  | setDelayReg (x : Reg)
  /-- Fx18 -/
  | setSoundReg (x : Reg)
  /-- Fx1E -/
  | addIReg (x : Reg)
  /-- Fx29 -/
  | setISpriteReg (x : Reg)
  /-- Fx33 -/
  | bcd (x : Reg)
  /-- Fx55 -/
  | dump (x : Reg)
  /-- Fx65 -/
  | load (x : Reg)
  deriving DecidableEq, Repr

end Sys2Proof
end

