-- ==== Sys2Proof/WellFormed.lean ====
section
/-! DEFINITION. Which terms of `Instr` stand for an instruction word. The operand types already bound every field, so one
check is left: `NoOp` is not 00E0 and not 00EE (30_encoding.md R76). -/

namespace Sys2Proof

/-- `nnn` is an operand `NoOp` can have (30_encoding.md R76). -/
def noOpOperand (nnn : BitVec 12) : Bool := nnn != 0x0E0#12 && nnn != 0x0EE#12

/-- The term stands for an instruction of 30_encoding.md R85. -/
def Instr.wellFormed : Instr → Bool
  | .noOp nnn => noOpOperand nnn
  | .clear | .ret | .jump _ | .call _ => true
  | .skipEqRegVal _ _ | .skipNeqRegVal _ _ | .skipEqRegReg _ _ | .skipNeqRegReg _ _ => true
  | .setRegVal _ _ | .addRegVal _ _ | .setRegReg _ _ | .orRegReg _ _ | .andRegReg _ _ | .xorRegReg _ _ => true
  | .addRegReg _ _ | .subRegReg _ _ | .shiftRight _ | .subReverseRegReg _ _ | .shiftLeft _ => true
  | .setI _ | .jumpOffset _ | .setRegRand _ _ | .draw _ _ _ => true
  | .skipKeyPressed _ | .skipKeyNotPressed _ => true
  | .setRegDelay _ | .setRegKey _ | .setDelayReg _ | .setSoundReg _ => true
  | .addIReg _ | .setISpriteReg _ | .bcd _ | .dump _ | .load _ => true

end Sys2Proof
end

