-- ==== Sys2Proof/Decode.lean ====
section
/-! DEFINITION. The decoder (30_encoding.md R70 to R83), total and rejecting by name; the encoder; and the opcode table
of R86 as data, against which the decoder can be held. -/

namespace Sys2Proof

/-- Why bytes are no instruction. -/
inductive DecodeError where
  /-- An illegal encoding (30_encoding.md R81). -/
  | illegal (op : Word)
  /-- Fewer than two bytes are left; every instruction is two bytes (30_encoding.md R70). -/
  | truncated
  deriving DecidableEq, Repr

/-! ## Fields of an opcode (30_encoding.md R71) -/

/-- The family: `op[15:12]`. -/
def fieldH (op : Word) : BitVec 4 := op.extractLsb' 12 4
/-- The register field x: `op[11:8]`. -/
def fieldX (op : Word) : Reg := (op.extractLsb' 8 4).toFin
/-- The register field y: `op[7:4]`. -/
def fieldY (op : Word) : Reg := (op.extractLsb' 4 4).toFin
/-- The nibble n: `op[3:0]`. -/
def fieldN (op : Word) : BitVec 4 := op.extractLsb' 0 4
/-- The immediate byte nn: `op[7:0]`. -/
def fieldNN (op : Word) : Byte := op.extractLsb' 0 8
/-- The address nnn: `op[11:0]`. -/
def fieldNNN (op : Word) : BitVec 12 := op.extractLsb' 0 12

/-! ## The decoder -/

/-- Family 0x0 (30_encoding.md R76): no word of it is an error. -/
def decodeFamily0 (op : Word) : Instr :=
  if op = 0x00E0#16 then .clear
  else if op = 0x00EE#16 then .ret
  else .noOp (fieldNNN op)

/-- Family 0x8, by `op[3:0]` (30_encoding.md R77). -/
def decodeFamily8 (op : Word) : Except DecodeError Instr :=
  match fieldN op with
  | 0x0#4 => .ok (.setRegReg (fieldX op) (fieldY op))
  | 0x1#4 => .ok (.orRegReg (fieldX op) (fieldY op))
  | 0x2#4 => .ok (.andRegReg (fieldX op) (fieldY op))
  | 0x3#4 => .ok (.xorRegReg (fieldX op) (fieldY op))
  | 0x4#4 => .ok (.addRegReg (fieldX op) (fieldY op))
  | 0x5#4 => .ok (.subRegReg (fieldX op) (fieldY op))
  | 0x6#4 => .ok (.shiftRight (fieldX op))
  | 0x7#4 => .ok (.subReverseRegReg (fieldX op) (fieldY op))
  | 0xE#4 => .ok (.shiftLeft (fieldX op))
  | _     => .error (.illegal op)

/-- Family 0xE, by `op[7:0]` (30_encoding.md R78). -/
def decodeFamilyE (op : Word) : Except DecodeError Instr :=
  match fieldNN op with
  | 0x9E#8 => .ok (.skipKeyPressed (fieldX op))
  | 0xA1#8 => .ok (.skipKeyNotPressed (fieldX op))
  | _      => .error (.illegal op)

/-- Family 0xF, by `op[7:0]` (30_encoding.md R79). -/
def decodeFamilyF (op : Word) : Except DecodeError Instr :=
  match fieldNN op with
  | 0x07#8 => .ok (.setRegDelay (fieldX op))
  | 0x0A#8 => .ok (.setRegKey (fieldX op))
  | 0x15#8 => .ok (.setDelayReg (fieldX op))
  | 0x18#8 => .ok (.setSoundReg (fieldX op))
  | 0x1E#8 => .ok (.addIReg (fieldX op))
  | 0x29#8 => .ok (.setISpriteReg (fieldX op))
  | 0x33#8 => .ok (.bcd (fieldX op))
  | 0x55#8 => .ok (.dump (fieldX op))
  | 0x65#8 => .ok (.load (fieldX op))
  | _      => .error (.illegal op)

/-- The decoder: every 16-bit value is one instruction or a decode error (30_encoding.md R74, R75). Families 0x5 and 0x9
do not look at `op[3:0]` (R80). -/
def decode (op : Word) : Except DecodeError Instr :=
  match fieldH op with
  | 0x0#4 => .ok (decodeFamily0 op)
  | 0x1#4 => .ok (.jump (fieldNNN op))
  | 0x2#4 => .ok (.call (fieldNNN op))
  | 0x3#4 => .ok (.skipEqRegVal (fieldX op) (fieldNN op))
  | 0x4#4 => .ok (.skipNeqRegVal (fieldX op) (fieldNN op))
  | 0x5#4 => .ok (.skipEqRegReg (fieldX op) (fieldY op))
  | 0x6#4 => .ok (.setRegVal (fieldX op) (fieldNN op))
  | 0x7#4 => .ok (.addRegVal (fieldX op) (fieldNN op))
  | 0x8#4 => decodeFamily8 op
  | 0x9#4 => .ok (.skipNeqRegReg (fieldX op) (fieldY op))
  | 0xA#4 => .ok (.setI (fieldNNN op))
  | 0xB#4 => .ok (.jumpOffset (fieldNNN op))
  | 0xC#4 => .ok (.setRegRand (fieldX op) (fieldNN op))
  | 0xD#4 => .ok (.draw (fieldX op) (fieldY op) (fieldN op).toFin)
  | 0xE#4 => decodeFamilyE op
  | _     => decodeFamilyF op -- 0xF, the one value left

/-- An opcode from its two bytes, the byte at the lower address as bits 15:8 (20_memory.md R61). -/
def opcodeOfBytes (first second : Byte) : Word := first ++ second

/-- The first byte of an opcode as it lies in memory: bits 15:8 (20_memory.md R61). -/
def firstByte (op : Word) : Byte := op.extractLsb' 8 8
/-- The second byte of an opcode as it lies in memory: bits 7:0 (20_memory.md R61). -/
def secondByte (op : Word) : Byte := op.extractLsb' 0 8

/-- The decoder on bytes as they lie in memory: the instruction and the bytes after it. -/
def decodeBytes : List Byte → Except DecodeError (Instr × List Byte)
  | first :: second :: rest =>
    match decode (opcodeOfBytes first second) with
    | .ok i    => .ok (i, rest)
    | .error e => .error e
  | _ => .error .truncated

/-- The instruction the decoder reads from the table's word `w` of `nbits` bits: its bytes are laid out as memory holds
them, the most significant first, and the bits above `nbits` are 0. -/
def decodeTableWord (nbits w : Nat) : Option Instr :=
  let op : Word := BitVec.ofNat 16 (w % 2 ^ nbits)
  match decodeBytes [firstByte op, secondByte op] with
  | .ok (i, _) => some i
  | .error _   => none

/-! ## The encoder (30_encoding.md R72) -/

/-- A 4-bit field that names a register. -/
def regBits (r : Reg) : BitVec 4 := BitVec.ofFin r

/-- Format NNN: `hhhh nnnn nnnn nnnn`. -/
def wordNNN (h : BitVec 4) (nnn : BitVec 12) : Word := h ++ nnn
/-- Format XNN, and format X with its selector in `nn`: `hhhh xxxx nnnn nnnn`. -/
def wordXNN (h : BitVec 4) (x : Reg) (nn : Byte) : Word := h ++ (regBits x ++ nn)
/-- Formats XY, XY- and XYN: `hhhh xxxx yyyy nnnn`. -/
def wordXYN (h : BitVec 4) (x y : Reg) (n : BitVec 4) : Word := h ++ (regBits x ++ (regBits y ++ n))

/-- The word of an instruction, with 0 in every field that the instruction ignores (30_encoding.md R72, R83). -/
def encode : Instr → Word
  | .clear                => 0x00E0#16
  | .ret                  => 0x00EE#16
  | .noOp nnn             => wordNNN 0x0#4 nnn
  | .jump nnn             => wordNNN 0x1#4 nnn
  | .call nnn             => wordNNN 0x2#4 nnn
  | .skipEqRegVal x nn    => wordXNN 0x3#4 x nn
  | .skipNeqRegVal x nn   => wordXNN 0x4#4 x nn
  | .skipEqRegReg x y     => wordXYN 0x5#4 x y 0x0#4
  | .setRegVal x nn       => wordXNN 0x6#4 x nn
  | .addRegVal x nn       => wordXNN 0x7#4 x nn
  | .setRegReg x y        => wordXYN 0x8#4 x y 0x0#4
  | .orRegReg x y         => wordXYN 0x8#4 x y 0x1#4
  | .andRegReg x y        => wordXYN 0x8#4 x y 0x2#4
  | .xorRegReg x y        => wordXYN 0x8#4 x y 0x3#4
  | .addRegReg x y        => wordXYN 0x8#4 x y 0x4#4
  | .subRegReg x y        => wordXYN 0x8#4 x y 0x5#4
  | .shiftRight x         => wordXYN 0x8#4 x 0 0x6#4
  | .subReverseRegReg x y => wordXYN 0x8#4 x y 0x7#4
  | .shiftLeft x          => wordXYN 0x8#4 x 0 0xE#4
  | .skipNeqRegReg x y    => wordXYN 0x9#4 x y 0x0#4
  | .setI nnn             => wordNNN 0xA#4 nnn
  | .jumpOffset nnn       => wordNNN 0xB#4 nnn
  | .setRegRand x nn      => wordXNN 0xC#4 x nn
  | .draw x y n           => wordXYN 0xD#4 x y (BitVec.ofFin n)
  | .skipKeyPressed x     => wordXNN 0xE#4 x 0x9E#8
  | .skipKeyNotPressed x  => wordXNN 0xE#4 x 0xA1#8
  | .setRegDelay x        => wordXNN 0xF#4 x 0x07#8
  | .setRegKey x          => wordXNN 0xF#4 x 0x0A#8
  | .setDelayReg x        => wordXNN 0xF#4 x 0x15#8
  | .setSoundReg x        => wordXNN 0xF#4 x 0x18#8
  | .addIReg x            => wordXNN 0xF#4 x 0x1E#8
  | .setISpriteReg x      => wordXNN 0xF#4 x 0x29#8
  | .bcd x                => wordXNN 0xF#4 x 0x33#8
  | .dump x               => wordXNN 0xF#4 x 0x55#8
  | .load x               => wordXNN 0xF#4 x 0x65#8

/-- The bits of its opcode that an instruction does not ignore: all but `y` in 8xy6 and 8xyE and `op[3:0]` in 5xyn and
9xyn (30_encoding.md R83). `NoOp` keeps its `nnn` as an operand here, so none of its bits is dropped. -/
def keptBits : Instr → Word
  | .skipEqRegReg _ _ | .skipNeqRegReg _ _ => 0xFFF0#16
  | .shiftRight _ | .shiftLeft _           => 0xFF0F#16
  | .clear | .ret | .noOp _ | .jump _ | .call _ => 0xFFFF#16
  | .skipEqRegVal _ _ | .skipNeqRegVal _ _ | .setRegVal _ _ | .addRegVal _ _ | .setRegRand _ _ => 0xFFFF#16
  | .setRegReg _ _ | .orRegReg _ _ | .andRegReg _ _ | .xorRegReg _ _ => 0xFFFF#16
  | .addRegReg _ _ | .subRegReg _ _ | .subReverseRegReg _ _ => 0xFFFF#16
  | .setI _ | .jumpOffset _ | .draw _ _ _ | .skipKeyPressed _ | .skipKeyNotPressed _ => 0xFFFF#16
  | .setRegDelay _ | .setRegKey _ | .setDelayReg _ | .setSoundReg _ => 0xFFFF#16
  | .addIReg _ | .setISpriteReg _ | .bcd _ | .dump _ | .load _ => 0xFFFF#16

/-! ## The opcode table (30_encoding.md R86; spec/opcode_table.json) -/

/-- One row of the opcode table: it selects `op` when `op & mask = match` and `op` is none of `excludes`. -/
structure TableRow where
  mnemonic : String
  pattern  : Word
  mask     : Word
  excludes : List Word := []
  deriving DecidableEq, Repr

/-- The row selects the opcode (30_encoding.md R86). -/
def TableRow.selects (row : TableRow) (op : Word) : Bool :=
  op &&& row.mask == row.pattern && !row.excludes.contains op

/-- The rows of families 0x0 to 0x7. -/
def opcodeTableLow : List TableRow :=
  [⟨"Clear", 0x00E0#16, 0xFFFF#16, []⟩, ⟨"Ret", 0x00EE#16, 0xFFFF#16, []⟩,
   ⟨"NoOp", 0x0000#16, 0xF000#16, [0x00E0#16, 0x00EE#16]⟩,
   ⟨"Jump", 0x1000#16, 0xF000#16, []⟩, ⟨"Call", 0x2000#16, 0xF000#16, []⟩,
   ⟨"SkipEqRegVal", 0x3000#16, 0xF000#16, []⟩, ⟨"SkipNeqRegVal", 0x4000#16, 0xF000#16, []⟩,
   ⟨"SkipEqRegReg", 0x5000#16, 0xF000#16, []⟩, ⟨"SetRegVal", 0x6000#16, 0xF000#16, []⟩,
   ⟨"AddRegVal", 0x7000#16, 0xF000#16, []⟩]

/-- The rows of family 0x8. -/
def opcodeTable8 : List TableRow :=
  [⟨"SetRegReg", 0x8000#16, 0xF00F#16, []⟩, ⟨"OrRegReg", 0x8001#16, 0xF00F#16, []⟩,
   ⟨"AndRegReg", 0x8002#16, 0xF00F#16, []⟩, ⟨"XorRegReg", 0x8003#16, 0xF00F#16, []⟩,
   ⟨"AddRegReg", 0x8004#16, 0xF00F#16, []⟩, ⟨"SubRegReg", 0x8005#16, 0xF00F#16, []⟩,
   ⟨"ShiftRight", 0x8006#16, 0xF00F#16, []⟩, ⟨"SubReverseRegReg", 0x8007#16, 0xF00F#16, []⟩,
   ⟨"ShiftLeft", 0x800E#16, 0xF00F#16, []⟩]

/-- The rows of families 0x9 to 0xF. -/
def opcodeTableHigh : List TableRow :=
  [⟨"SkipNeqRegReg", 0x9000#16, 0xF000#16, []⟩, ⟨"SetI", 0xA000#16, 0xF000#16, []⟩,
   ⟨"JumpOffset", 0xB000#16, 0xF000#16, []⟩, ⟨"SetRegRand", 0xC000#16, 0xF000#16, []⟩,
   ⟨"Draw", 0xD000#16, 0xF000#16, []⟩,
   ⟨"SkipKeyPressed", 0xE09E#16, 0xF0FF#16, []⟩, ⟨"SkipKeyNotPressed", 0xE0A1#16, 0xF0FF#16, []⟩,
   ⟨"SetRegDelay", 0xF007#16, 0xF0FF#16, []⟩, ⟨"SetRegKey", 0xF00A#16, 0xF0FF#16, []⟩,
   ⟨"SetDelayReg", 0xF015#16, 0xF0FF#16, []⟩, ⟨"SetSoundReg", 0xF018#16, 0xF0FF#16, []⟩,
   ⟨"AddIReg", 0xF01E#16, 0xF0FF#16, []⟩, ⟨"SetISpriteReg", 0xF029#16, 0xF0FF#16, []⟩,
   ⟨"BCD", 0xF033#16, 0xF0FF#16, []⟩, ⟨"Dump", 0xF055#16, 0xF0FF#16, []⟩, ⟨"Load", 0xF065#16, 0xF0FF#16, []⟩]

/-- The opcode table, in the order its rows are tested (30_encoding.md R86). -/
def opcodeTable : List TableRow := opcodeTableLow ++ opcodeTable8 ++ opcodeTableHigh

/-- The mnemonic of the first row that selects the opcode; none where no row does (30_encoding.md R86). -/
def tableMnemonic (op : Word) : Option String := (opcodeTable.find? (·.selects op)).map (·.mnemonic)

/-- The table's mnemonic for an instruction (30_encoding.md R85). -/
def Instr.mnemonic : Instr → String
  | .clear => "Clear" | .ret => "Ret" | .noOp _ => "NoOp" | .jump _ => "Jump" | .call _ => "Call"
  | .skipEqRegVal _ _ => "SkipEqRegVal" | .skipNeqRegVal _ _ => "SkipNeqRegVal"
  | .skipEqRegReg _ _ => "SkipEqRegReg" | .setRegVal _ _ => "SetRegVal" | .addRegVal _ _ => "AddRegVal"
  | .setRegReg _ _ => "SetRegReg" | .orRegReg _ _ => "OrRegReg" | .andRegReg _ _ => "AndRegReg"
  | .xorRegReg _ _ => "XorRegReg" | .addRegReg _ _ => "AddRegReg" | .subRegReg _ _ => "SubRegReg"
  | .shiftRight _ => "ShiftRight" | .subReverseRegReg _ _ => "SubReverseRegReg" | .shiftLeft _ => "ShiftLeft"
  | .skipNeqRegReg _ _ => "SkipNeqRegReg" | .setI _ => "SetI" | .jumpOffset _ => "JumpOffset"
  | .setRegRand _ _ => "SetRegRand" | .draw _ _ _ => "Draw"
  | .skipKeyPressed _ => "SkipKeyPressed" | .skipKeyNotPressed _ => "SkipKeyNotPressed"
  | .setRegDelay _ => "SetRegDelay" | .setRegKey _ => "SetRegKey" | .setDelayReg _ => "SetDelayReg"
  | .setSoundReg _ => "SetSoundReg" | .addIReg _ => "AddIReg" | .setISpriteReg _ => "SetISpriteReg"
  | .bcd _ => "BCD" | .dump _ => "Dump" | .load _ => "Load"

end Sys2Proof
end

