-- ==== Sys2Proof/Config.lean ====
section
/-! DEFINITION. What is fixed for one machine (the parameters of 00_scope.md R6) and the values the spec leaves free. -/

namespace Sys2Proof

/-- The five fault causes of 60_exceptions.md R221. -/
inductive FaultCode where
  /-- 1: STEP dispatch met an illegal encoding (30_encoding.md R81). -/
  | decodeError
  /-- 2: `Ret` with an empty stack (40_control_flow.md R108). -/
  | stackUnderflow
  /-- 3: `Call` with a full stack (40_control_flow.md R107). -/
  | stackOverflow
  /-- 4: a byte address above 0xFFF (20_memory.md R55, R56). -/
  | addressFault
  /-- 5: a key number above 0xF (41_skips.md R125, R126). -/
  | keyIndexFault
  deriving DecidableEq, Repr, Inhabited

/-- The fields of the fault record beside `halted` (10_state.md R32). -/
structure FaultRecord where
  code   : FaultCode
  pc     : Word
  opcode : Word
  info   : Word
  deriving DecidableEq, Repr, Inhabited

/-- The parameters of 00_scope.md R6. The state carries them as plain data, so that a claim about
every state is a claim for every choice of them (DESIGN CHOICE, log 2; safe). -/
structure Config where
  /-- STACK_LIMIT: a positive integer, or `none` for UNBOUNDED (R6, R27). -/
  stackLimit : Option Nat
  /-- FONT: one row for each digit 0..F (R6, R37). -/
  font       : Vector Glyph 16
  /-- MEM_INIT: the reset contents of 0x050..0xFFF; an address not listed holds 0 (R6, R38). -/
  memInit    : List Host.Cell
  /-- FB_INIT: the display when the block first starts (R6, R38). -/
  fbInit     : Pix
  deriving DecidableEq, Repr

/-- STACK_LIMIT is a positive integer or UNBOUNDED (00_scope.md R6). -/
def Config.wf (c : Config) : Bool := c.stackLimit != some 0

/-- The random input of a STEP for which the host names none: any byte (10_state.md R34, log 7; safe). -/
opaque Config.freeRandom : Nat → Byte

/-- The fault record after an INIT operation: any record (10_state.md R38;
93_implementation_defined.md section 1; log 10; safe). -/
opaque Config.freeFault : Nat → FaultRecord

end Sys2Proof
end

