-- ==== Sys2Proof/Machine/Defaults.lean ====
section
/-! DEFINITION. The parameter values of the machine that `State.reset` starts (00_scope.md R6): the premises of
95_test_vectors.md. No claim about every state rests on them. -/

namespace Sys2Proof.Machine

/-- The glyphs of digits 0 to 7, as 10_state.md R37 lists them (PRESUMED by the spec from general knowledge, log 4; unsafe). -/
def fontLow : List Glyph :=
  [#v[0xF0, 0x90, 0x90, 0x90, 0xF0], #v[0x20, 0x60, 0x20, 0x20, 0x70],
   #v[0xF0, 0x10, 0xF0, 0x80, 0xF0], #v[0xF0, 0x10, 0xF0, 0x10, 0xF0],
   #v[0x90, 0x90, 0xF0, 0x10, 0x10], #v[0xF0, 0x80, 0xF0, 0x10, 0xF0],
   #v[0xF0, 0x80, 0xF0, 0x90, 0xF0], #v[0xF0, 0x10, 0x20, 0x40, 0x40]]

/-- The glyphs of digits 8 to F, as 10_state.md R37 lists them (PRESUMED by the spec from general knowledge, log 4; unsafe). -/
def fontHigh : List Glyph :=
  [#v[0xF0, 0x90, 0xF0, 0x90, 0xF0], #v[0xF0, 0x90, 0xF0, 0x10, 0xF0],
   #v[0xF0, 0x90, 0xF0, 0x90, 0x90], #v[0xE0, 0x90, 0xE0, 0x90, 0xE0],
   #v[0xF0, 0x80, 0x80, 0x80, 0xF0], #v[0xE0, 0x90, 0x90, 0x90, 0xE0],
   #v[0xF0, 0x80, 0xF0, 0x80, 0xF0], #v[0xF0, 0x80, 0xF0, 0x80, 0x80]]

/-- The default FONT: one glyph for each digit 0..F (10_state.md R37). -/
def defaultFont : Vector Glyph 16 := ⟨(fontLow ++ fontHigh).toArray, rfl⟩

/-- A display with every pixel off. -/
def darkPix : Pix := Vector.replicate 32 0#64

/-- STACK_LIMIT unbounded, which is the source's design (00_scope.md R6), the default FONT, MEM_INIT 0 everywhere and
FB_INIT all off (DESIGN CHOICE after the premises of 95_test_vectors.md, log 3; unsafe for a claim about reset alone). -/
def defaultConfig : Config := { stackLimit := none, font := defaultFont, memInit := [], fbInit := darkPix }

end Sys2Proof.Machine
end

