-- ==== Sys2Proof/Machine/State.lean ====
section
/-! DEFINITION. The state (10_state.md R20), the block's inputs (R33, R34), the host's coming operations (R35), and the
reset state (R38). All of it is plain data. -/

namespace Sys2Proof.Machine

/-- Memory as the list of its bytes that differ from their reset contents, at strictly rising addresses (20_memory.md
R50). `Memory.wf` in Machine/Ops.lean states the form. -/
abbrev Memory := List Host.Cell

/-- Where the block stands in its lifecycle (10_state.md R20; 70_reset_and_hazards.md R251). -/
inductive Phase where
  | initDone
  | loaded
  | running
  deriving DecidableEq, Repr

/-- The four operations the host can invoke (10_state.md R35). -/
inductive HostOp where
  /-- INIT (70_reset_and_hazards.md R250). -/
  | init
  /-- LOAD_ROM(bytes) (70_reset_and_hazards.md R251). -/
  | loadRom (bytes : List Byte)
  /-- STEP(KEY, RND) (40_control_flow.md R100). -/
  | step (key : Keys) (rnd : Byte)
  /-- TICK (60_exceptions.md R235). -/
  | tick
  deriving DecidableEq, Repr

/-- The state of the block, its inputs, and the model's own fields. -/
structure State where
  /-- V0..VF (10_state.md R21). -/
  v         : Vector Byte 16
  /-- The index register I (10_state.md R26). -/
  i         : Word
  /-- The program counter (10_state.md R25). -/
  pc        : Word
  /-- The call stack, the newest entry last (10_state.md R27; 40_control_flow.md R110). -/
  stack     : List Word
  /-- The delay timer DT (10_state.md R28). -/
  dt        : Byte
  /-- The sound timer ST (10_state.md R29). -/
  st        : Byte
  /-- The 4096 bytes of memory (10_state.md R30). -/
  mem       : Memory
  /-- The display PIX (10_state.md R31). -/
  pix       : Pix
  /-- The block has faulted (10_state.md R32). -/
  halted    : Bool
  /-- The rest of the fault record; no rule reads it while `halted` is false (10_state.md R32). -/
  fault     : FaultRecord
  /-- The lifecycle phase (10_state.md R20). -/
  phase     : Phase
  /-- INPUT. KEY: the key states as the host presents them (10_state.md R33, log 6). -/
  key       : Keys
  /-- INPUT. RND of the STEP under way where the host names it; `none`: any byte (10_state.md R34, log 7). -/
  rnd       : Option Byte
  /-- THE MODEL'S OWN. The operations the host invokes next, oldest first; with none left it only invokes STEP (log 8). -/
  host      : List HostOp
  /-- THE MODEL'S OWN. The index of the next free value (log 7). -/
  freeCount : Nat
  /-- THE MODEL'S OWN. The parameters of 00_scope.md R6, constant for a machine (log 2). -/
  cfg       : Config
  deriving DecidableEq, Repr

/-- Why a step stops with a fault: never. Every fault of 60_exceptions.md R221 leaves a state the spec gives (R222), so
it is a next state with `halted` set and the record written, and no meaning answers with an outcome of this type
(DEDUCED from R222, log 1; safe). -/
inductive Fault where
  deriving DecidableEq, Repr

/-- Why a step has no meaning. -/
inductive Refusal where
  /-- Raised by an arm of `exec` whose instruction has no meaning yet; no arm is left that raises it. Safe. -/
  | notModelled (mnemonic : String)
  /-- Raised by the host operation LOAD_ROM outside phase INIT_DONE (70_reset_and_hazards.md R251, D23). Safe. -/
  | loadRomOutsideInitDone
  /-- Raised by the host operation LOAD_ROM with more than 3584 bytes (70_reset_and_hazards.md R251, D22). Safe. -/
  | loadRomTooLong
  deriving DecidableEq, Repr

/-- The named contents of the fault record at reset, where the spec leaves it unspecified (DESIGN CHOICE, log 10;
unsafe for a claim that reads it). -/
def resetFault : FaultRecord := { code := .decodeError, pc := 0, opcode := 0, info := 0 }

/-- The state right after INIT of a machine with parameters `c` whose display holds FB_INIT (10_state.md R38). The
inputs and the model's own fields hold values the log names (log 6, log 7, log 8). -/
def State.start (c : Config) : State where
  v         := Vector.replicate 16 0
  i         := 0
  pc        := 0x200
  stack     := []
  dt        := 0
  st        := 0
  mem       := []
  pix       := c.fbInit
  halted    := false
  fault     := resetFault
  phase     := .initDone
  key       := 0
  rnd       := none
  host      := []
  freeCount := 0
  cfg       := c

/-- The machine right after reset (10_state.md R38), with the default parameters (log 3, log 4). -/
def State.reset : State := State.start defaultConfig

end Sys2Proof.Machine
end

