-- ==== Sys2Proof/Machine/Ops.lean ====
section
/-! DEFINITION. The named operations over registers, memory and stack, the PC update, and taking a fault. -/

namespace Sys2Proof.Machine

/-- What a meaning answers. -/
abbrev Result := Host.Outcome State Fault Refusal

/-! ## Memory as data (20_memory.md R50, R63) -/

/-- The byte a list of cells holds at an address: that of the first cell for it. -/
def Memory.lookup : Memory → Nat → Option Byte
  | [], _ => none
  | (a', b) :: m, a => if a' = a then some b else Memory.lookup m a

/-- The reset contents of memory, which an address that memory does not list holds: FONT in 0x000..0x04F, glyph d at
5 × d, and MEM_INIT above (10_state.md R37, R38; log 5). -/
def resetByte (c : Config) (a : Nat) : Byte :=
  if h : a < 80 then (c.font[a / 5]'(by omega))[a % 5]'(by omega)
  else (Memory.lookup c.memInit a).getD 0

/-- The byte at an address. -/
def Memory.read (c : Config) (m : Memory) (a : Nat) : Byte := (m.lookup a).getD (resetByte c a)

/-- Put a cell at its place among strictly rising addresses. -/
def Memory.insert : Memory → Nat → Byte → Memory
  | [], a, b => [(a, b)]
  | (a', b') :: m, a, b =>
    if a < a' then (a, b) :: (a', b') :: m
    else if a = a' then (a, b) :: m
    else (a', b') :: Memory.insert m a b

/-- Take an address off the list. -/
def Memory.erase : Memory → Nat → Memory
  | [], _ => []
  | (a', b') :: m, a => if a' = a then Memory.erase m a else (a', b') :: Memory.erase m a

/-- Write one byte; a byte equal to the reset contents is not listed, so that equal memories are equal lists. -/
def Memory.write (c : Config) (m : Memory) (a : Nat) (b : Byte) : Memory :=
  if b = resetByte c a then m.erase a else m.insert a b

/-- Write bytes at rising addresses from `a`. -/
def Memory.store (c : Config) (m : Memory) (a : Nat) : List Byte → Memory
  | [] => m
  | b :: bs => Memory.store c (m.write c a b) (a + 1) bs

/-- The canonical form from address `lo` on. -/
def Memory.wfFrom (c : Config) (lo : Nat) : Memory → Bool
  | [] => true
  | (a, b) :: m => decide (lo ≤ a) && decide (a ≤ 0xFFF) && (b != resetByte c a) && Memory.wfFrom c (a + 1) m

/-- The canonical form: addresses strictly rising, none above 0xFFF, and no byte equal to the reset contents. -/
def Memory.wf (c : Config) (m : Memory) : Bool := m.wfFrom c 0

/-! ## Registers (10_state.md R21 to R29) -/

/-- The flag register VF (10_state.md R23). -/
def VF : Reg := 15

/-- `V[r]` (10_state.md R21: no register is hardwired). -/
def State.reg (s : State) (r : Reg) : Byte := s.v[r.val]

/-- `V[r] <- b`. -/
def State.setReg (s : State) (r : Reg) (b : Byte) : State := { s with v := s.v.set r.val b }

/-- The registers from index `r` on take the bytes in turn (43_index_memory.md R176). -/
def setRegsFrom (v : Vector Byte 16) (r : Nat) : List Byte → Vector Byte 16
  | [] => v
  | b :: bs => setRegsFrom (v.setIfInBounds r b) (r + 1) bs

/-- All registers at once. -/
def State.setRegs (s : State) (v : Vector Byte 16) : State := { s with v := v }

/-- `I <- w`. -/
def State.setI (s : State) (w : Word) : State := { s with i := w }

/-- `DT <- b`. -/
def State.setDT (s : State) (b : Byte) : State := { s with dt := b }

/-- `ST <- b`. -/
def State.setST (s : State) (b : Byte) : State := { s with st := b }

/-- `PIX <- p`. -/
def State.setPix (s : State) (p : Pix) : State := { s with pix := p }

/-- The next free value is another one (log 7). -/
def State.nextFree (s : State) : State := { s with freeCount := s.freeCount + 1 }

/-! ## The access primitives (20_memory.md R55, R56) -/

/-- The byte that memory holds at an address. -/
def State.byteAt (s : State) (a : Nat) : Byte := s.mem.read s.cfg a

/-- Memory after one byte is written. -/
def State.setByte (s : State) (a : Nat) (b : Byte) : State := { s with mem := s.mem.write s.cfg a b }

/-- Memory after a run of bytes is written at rising addresses from `a`. -/
def State.storeBytes (s : State) (a : Nat) (bs : List Byte) : State := { s with mem := s.mem.store s.cfg a bs }

/-- `MemRead(a, 1)`, or the address of its AddressFault (20_memory.md R55). -/
def memRead (s : State) (a : Nat) : Except Nat Byte :=
  if a > 0xFFF then .error (max a 0x1000) else .ok (s.byteAt a)

/-- `MemRead(a, 2)`, big-endian, or the address of its AddressFault (20_memory.md R55, R61). -/
def memRead2 (s : State) (a : Nat) : Except Nat Word :=
  if a + 1 > 0xFFF then .error (max a 0x1000) else .ok (opcodeOfBytes (s.byteAt a) (s.byteAt (a + 1)))

/-- `MemWrite(a, 1, b)`, or the address of its AddressFault (20_memory.md R56). -/
def memWrite (s : State) (a : Nat) (b : Byte) : Except Nat State :=
  if a > 0xFFF then .error a else .ok (s.setByte a b)

/-- `n` single-byte reads at rising addresses; the first one that faults ends them (20_memory.md R59). -/
def readBytes (s : State) (a : Nat) : Nat → Except Nat (List Byte)
  | 0 => .ok []
  | n + 1 =>
    match memRead s a with
    | .error e => .error e
    | .ok b =>
      match readBytes s (a + 1) n with
      | .error e => .error e
      | .ok bs => .ok (b :: bs)

/-- Single-byte writes at rising addresses; the first one that faults ends them (20_memory.md R59). -/
def writeBytes (s : State) (a : Nat) : List Byte → Except Nat State
  | [] => .ok s
  | b :: bs =>
    match memWrite s a b with
    | .error e => .error e
    | .ok s' => writeBytes s' (a + 1) bs

/-- Fetch: `MemRead(pc, 2)`; no alignment check (40_control_flow.md R101; 20_memory.md R58). -/
def fetch (s : State) : Except Nat Word := memRead2 s s.pc.toNat

/-! ## The call stack (40_control_flow.md R110) -/

/-- The stack holds STACK_LIMIT entries (40_control_flow.md R107). -/
def State.stackFull (s : State) : Bool := s.cfg.stackLimit == some s.stack.length

/-- `push(w)`: append to the end. -/
def State.push (s : State) (w : Word) : State := { s with stack := s.stack ++ [w] }

/-- `pop()` takes the last entry off; its value is `s.stack.getLast?`. -/
def State.pop (s : State) : State := { s with stack := s.stack.dropLast }

/-! ## The PC update (40_control_flow.md R103) -/

/-- Every instruction ends with `pc <- (pw + 2) mod 2^16`, where `pw` is the step's local value. -/
def State.finish (s : State) (pw : Word) : Result := .next { s with pc := pw + 2 }

/-- No write to `pw`: the net `pc` is `pc + 2`. -/
def State.advance (s : State) : Result := s.finish s.pc

/-- `pc <- target`, that is `pw <- (target - 2) mod 2^16`: the net `pc` is `target`. -/
def State.jumpTo (s : State) (target : Word) : Result := s.finish (target - 2)

/-- A conditional skip: taken, `pw <- pc + 2` (41_skips.md R120). -/
def State.skipIf (s : State) (taken : Bool) : Result := s.finish (if taken then s.pc + 2 else s.pc)

/-- `pw <- pc - 2`: the same instruction runs at the next STEP (44_timers_keys.md R193). -/
def State.runAgain (s : State) : Result := s.finish (s.pc - 2)

/-! ## Taking a fault (60_exceptions.md R222)

There is no return from a fault (R227): only the host's INIT leaves the halted state. -/

/-- Take a fault. It is called on the state before any write of the step, so the step is undone; `halted` and the record
are set, with the address of the faulting instruction, its opcode and the fault's information. The halted state is a next
state (log 1). -/
def State.raise (s : State) (code : FaultCode) (opcode info : Word) : Result :=
  .next { s with halted := true, fault := { code := code, pc := s.pc, opcode := opcode, info := info } }

/-- Take an AddressFault; its information is the address mod 2^16 (60_exceptions.md R221). -/
def State.raiseAddress (s : State) (opcode : Word) (a : Nat) : Result :=
  s.raise .addressFault opcode (BitVec.ofNat 16 a)

/-- The numbers of the fault causes (60_exceptions.md R221). -/
def faultNumber : FaultCode → Nat
  | .decodeError    => 1
  | .stackUnderflow => 2
  | .stackOverflow  => 3
  | .addressFault   => 4
  | .keyIndexFault  => 5

end Sys2Proof.Machine
end

