-- ==== Sys2Proof/Machine/Flags.lean ====
section
/-! DEFINITION. Every flag computation; VF is the only flag (10_state.md R23). -/

namespace Sys2Proof.Machine

/-- A condition as the value of VF: 1 or 0 (10_state.md R23). -/
def flagByte (c : Bool) : Byte := if c then 1 else 0

/-- `VF <- 1 if c else 0`. -/
def State.setFlag (s : State) (c : Bool) : State := s.setReg VF (flagByte c)

/-- The carry of an add: `a + b > 255` (42_alu.md R140, R148). -/
def carry (a b : Byte) : Bool := decide (a.toNat + b.toNat > 255)

/-- No borrow in `a - b`: `a >= b` (42_alu.md R140, R149, R151). -/
def noBorrow (a b : Byte) : Bool := decide (a.toNat ≥ b.toNat)

/-- The bit that a right shift loses: bit 0 (42_alu.md R150). -/
def lowBit (a : Byte) : Bool := a.getLsbD 0

/-- The bit that a left shift loses: bit 7 (42_alu.md R152). -/
def highBit (a : Byte) : Bool := a.getLsbD 7

end Sys2Proof.Machine
end

