-- ==== Sys2Proof/Machine/Operands.lean ====
section
/-! DEFINITION. Every operand form: registers are `State.reg`; here stand the immediates (30_encoding.md R73), the index
addresses (43_index_memory.md R170), the register runs of Dump, the key-state and random inputs (10_state.md R33, R34). -/

namespace Sys2Proof.Machine

/-- `zext_16(nnn)` (30_encoding.md R73). -/
def addressOf (nnn : BitVec 12) : Word := nnn.setWidth 16

/-- `zext_16(b)` (00_scope.md R9). -/
def zext16 (b : Byte) : Word := b.setWidth 16

/-- The base of an index access as a natural number: byte k lies at this plus k, with no wrap-around (43_index_memory.md
R170; 20_memory.md R57). -/
def State.indexBase (s : State) : Nat := s.i.toNat

/-- `V[0..x]`, both ends included (43_index_memory.md R175). -/
def State.regsUpTo (s : State) (x : Reg) : List Byte := s.v.toList.take (x.val + 1)

/-- `KEY[k]` (10_state.md R33). -/
def State.keyDown (s : State) (k : Nat) : Bool := s.key.getLsbD k

/-- The least pressed key, in index order 0..15 (44_timers_keys.md R193). -/
def State.lowestKey (s : State) : Option Nat := (List.range 16).find? s.keyDown

/-- RND of this STEP: the byte the host names, or else a free value (10_state.md R34, log 7). -/
def State.random (s : State) : Byte := s.rnd.getD (Config.freeRandom s.freeCount)

end Sys2Proof.Machine
end

