-- ==== Sys2Proof/Machine/Alu.lean ====
section
/-! DEFINITION. The meanings of 42_alu.md: loads, arithmetic, logic, shifts, random. Where an instruction writes a result
and VF, the order of the two writes is that of 42_alu.md R141. -/

namespace Sys2Proof.Machine

/-- 6xnn (42_alu.md R142). -/
def execSetRegVal (x : Reg) (nn : Byte) (s : State) : Result := (s.setReg x nn).advance

/-- 7xnn (42_alu.md R143): no flag. -/
def execAddRegVal (x : Reg) (nn : Byte) (s : State) : Result := (s.setReg x (s.reg x + nn)).advance

/-- 8xy0 (42_alu.md R144). -/
def execSetRegReg (x y : Reg) (s : State) : Result := (s.setReg x (s.reg y)).advance

/-- 8xy1 (42_alu.md R145): no flag. -/
def execOrRegReg (x y : Reg) (s : State) : Result := (s.setReg x (s.reg x ||| s.reg y)).advance

/-- 8xy2 (42_alu.md R146): no flag. -/
def execAndRegReg (x y : Reg) (s : State) : Result := (s.setReg x (s.reg x &&& s.reg y)).advance

/-- 8xy3 (42_alu.md R147): no flag. -/
def execXorRegReg (x y : Reg) (s : State) : Result := (s.setReg x (s.reg x ^^^ s.reg y)).advance

/-- The result first, then the flag: with x = 0xF the flag stays (42_alu.md R141). -/
def State.setResultThenFlag (s : State) (x : Reg) (result : Byte) (flag : Bool) : State :=
  (s.setReg x result).setFlag flag

/-- 8xy4 (42_alu.md R148). -/
def execAddRegReg (x y : Reg) (s : State) : Result :=
  (s.setResultThenFlag x (s.reg x + s.reg y) (carry (s.reg x) (s.reg y))).advance

/-- 8xy5 (42_alu.md R149). -/
def execSubRegReg (x y : Reg) (s : State) : Result :=
  (s.setResultThenFlag x (s.reg x - s.reg y) (noBorrow (s.reg x) (s.reg y))).advance

/-- 8xy7 (42_alu.md R151). -/
def execSubReverseRegReg (x y : Reg) (s : State) : Result :=
  (s.setResultThenFlag x (s.reg y - s.reg x) (noBorrow (s.reg y) (s.reg x))).advance

/-- The flag first, then the shift of `V[x]` as the flag's write left it (42_alu.md R141). -/
def State.setFlagThenShift (s : State) (x : Reg) (flag : Bool) (left : Bool) : State :=
  let s' := s.setFlag flag
  s'.setReg x (if left then s'.reg x <<< 1 else s'.reg x >>> 1)

/-- 8xy6 (42_alu.md R150): in place; y is ignored. -/
def execShiftRight (x : Reg) (s : State) : Result := (s.setFlagThenShift x (lowBit (s.reg x)) false).advance

/-- 8xyE (42_alu.md R152): in place; y is ignored. -/
def execShiftLeft (x : Reg) (s : State) : Result := (s.setFlagThenShift x (highBit (s.reg x)) true).advance

/-- Cxnn (42_alu.md R153). -/
def execSetRegRand (x : Reg) (nn : Byte) (s : State) : Result :=
  ((s.setReg x (s.random &&& nn)).nextFree).advance

end Sys2Proof.Machine
end

