-- ==== Sys2Proof/Machine/ControlFlow.lean ====
section
/-! DEFINITION. The meanings of 40_control_flow.md: NoOp, Jump, Call, Ret, JumpOffset. -/

namespace Sys2Proof.Machine

/-- 0nnn (40_control_flow.md R105): only the pc advances. -/
def execNoOp (s : State) : Result := s.advance

/-- 1nnn (40_control_flow.md R106). -/
def execJump (nnn : BitVec 12) (s : State) : Result := s.jumpTo (addressOf nnn)

/-- 2nnn (40_control_flow.md R107). -/
def execCall (nnn : BitVec 12) (s : State) : Result :=
  if s.stackFull then s.raise .stackOverflow (encode (.call nnn)) 0
  else (s.push (s.pc + 2)).jumpTo (addressOf nnn)

/-- 00EE (40_control_flow.md R108). -/
def execRet (s : State) : Result :=
  match s.stack.getLast? with
  | none => s.raise .stackUnderflow (encode .ret) 0
  | some a => s.pop.jumpTo a

/-- Bnnn (40_control_flow.md R109): the offset is always `V[0]`, and the sum is not masked. -/
def execJumpOffset (nnn : BitVec 12) (s : State) : Result := s.jumpTo (addressOf nnn + zext16 (s.reg 0))

end Sys2Proof.Machine
end

