-- ==== Sys2Proof/Machine/Display.lean ====
section
/-! DEFINITION. The display and the meanings of 45_display.md: Clear and Draw; and the host's byte view of the display. -/

namespace Sys2Proof.Machine

/-- `PIX[c][r]` of a display; the pixel is on (45_display.md R200). -/
def pixelOf (p : Pix) (c : Fin 64) (r : Fin 32) : Bool := p[r.val].getLsbD c.val

/-- `PIX[c][r] <- PIX[c][r] ^ 1`. -/
def flipPixel (p : Pix) (c : Fin 64) (r : Fin 32) : Pix := p.set r.val (p[r.val] ^^^ (1#64 <<< c.val))

/-- `PIX[c][r]` of the state (10_state.md R31). -/
def State.pixel (s : State) (c : Fin 64) (r : Fin 32) : Bool := pixelOf s.pix c r

/-- 00E0 (45_display.md R203): every pixel off; VF is not written. -/
def execClear (s : State) : Result := (s.setPix (Vector.replicate 32 0#64)).advance

/-- A draw under way: the display so far, and whether a pixel went from on to off. -/
structure Drawing where
  pix     : Pix
  collide : Bool
  deriving DecidableEq, Repr

/-- XOR one set bit of a sprite onto pixel (c, r) (45_display.md R205). -/
def plot (d : Drawing) (c : Fin 64) (r : Fin 32) : Drawing :=
  { pix := flipPixel d.pix c r, collide := d.collide || pixelOf d.pix c r }

/-- The display column of sprite column `col` with the sprite at `ox`: the sum wraps (45_display.md R204). -/
def columnAt (ox : Byte) (col : Nat) : Fin 64 := ⟨(ox.toNat + col) % 64, Nat.mod_lt _ (by decide)⟩

/-- The display row of sprite row `row` with the sprite at `oy`: the sum wraps (45_display.md R204). -/
def rowAt (oy : Byte) (row : Nat) : Fin 32 := ⟨(oy.toNat + row) % 32, Nat.mod_lt _ (by decide)⟩

/-- One column of a sprite row; bit 7 of the row's byte is column 0 (45_display.md R204). -/
def drawBit (ox oy bits : Byte) (row : Nat) (d : Drawing) (col : Nat) : Drawing :=
  if bits.getLsbD (7 - col) then plot d (columnAt ox col) (rowAt oy row) else d

/-- One row of a sprite, columns 0 to 7. -/
def drawRow (ox oy bits : Byte) (row : Nat) (d : Drawing) : Drawing :=
  (List.range 8).foldl (drawBit ox oy bits row) d

/-- The rows of a sprite from row `row` on. -/
def drawRows (ox oy : Byte) (row : Nat) (d : Drawing) : List Byte → Drawing
  | [] => d
  | bits :: rest => drawRows ox oy (row + 1) (drawRow ox oy bits row d) rest

/-- Dxyn (45_display.md R205): coordinates and sprite bytes are read first, VF is written last. -/
def execDraw (x y : Reg) (n : Fin 16) (s : State) : Result :=
  match readBytes s s.indexBase n.val with
  | .error a => s.raiseAddress (encode (.draw x y n)) a
  | .ok rows =>
    let d := drawRows (s.reg x) (s.reg y) 0 { pix := s.pix, collide := false } rows
    ((s.setPix d.pix).setFlag d.collide).advance

/-- The host's byte view `FB` of 8192 bytes: byte j belongs to pixel (j / 4 mod 64, j / 256); 0xFF is on and 0x00 is off
(45_display.md R201). -/
def State.frameByte (s : State) (j : Fin 8192) : Byte :=
  if s.pixel ⟨j.val / 4 % 64, Nat.mod_lt _ (by decide)⟩ ⟨j.val / 256, by omega⟩ then 0xFF else 0x00

end Sys2Proof.Machine
end

