-- ==== Sys2Proof/Machine/IndexMemory.lean ====
section
/-! DEFINITION. The meanings of 43_index_memory.md. No access modifies I (R170), and a faulting access undoes the whole
step, since the fault is taken on the state before it. -/

namespace Sys2Proof.Machine

/-- Annn (43_index_memory.md R171). -/
def execSetI (nnn : BitVec 12) (s : State) : Result := (s.setI (addressOf nnn)).advance

/-- Fx1E (43_index_memory.md R172): mod 2^16, no flag. -/
def execAddIReg (x : Reg) (s : State) : Result := (s.setI (s.i + zext16 (s.reg x))).advance

/-- Fx29 (43_index_memory.md R173): FONT_BASE 0x000, GLYPH_STRIDE 5, the digit not masked. -/
def execSetISpriteReg (x : Reg) (s : State) : Result := (s.setI (5 * zext16 (s.reg x))).advance

/-- The three decimal digits of a byte, hundreds first (43_index_memory.md R174; 20_memory.md R62). -/
def bcdDigits (b : Byte) : List Byte :=
  [BitVec.ofNat 8 (b.toNat / 100), BitVec.ofNat 8 (b.toNat / 10 % 10), BitVec.ofNat 8 (b.toNat % 10)]

/-- Store bytes from `I` on, or take the AddressFault of the first that lies above 0xFFF (43_index_memory.md R170). -/
def storeAtIndex (opcode : Word) (bytes : List Byte) (s : State) : Result :=
  match writeBytes s s.indexBase bytes with
  | .error a => s.raiseAddress opcode a
  | .ok s' => s'.advance

/-- Fx33 (43_index_memory.md R174). -/
def execBcd (x : Reg) (s : State) : Result := storeAtIndex (encode (.bcd x)) (bcdDigits (s.reg x)) s

/-- Fx55 (43_index_memory.md R175). -/
def execDump (x : Reg) (s : State) : Result := storeAtIndex (encode (.dump x)) (s.regsUpTo x) s

/-- Fx65 (43_index_memory.md R176). -/
def execLoad (x : Reg) (s : State) : Result :=
  match readBytes s s.indexBase (x.val + 1) with
  | .error a => s.raiseAddress (encode (.load x)) a
  | .ok bytes => (s.setRegs (setRegsFrom s.v 0 bytes)).advance

end Sys2Proof.Machine
end

