-- ==== Sys2Proof/Machine/Skips.lean ====
section
/-! DEFINITION. The meanings of 41_skips.md: the six conditional skips. -/

namespace Sys2Proof.Machine

/-- 3xnn (41_skips.md R121). -/
def execSkipEqRegVal (x : Reg) (nn : Byte) (s : State) : Result := s.skipIf (s.reg x == nn)

/-- 4xnn (41_skips.md R122). -/
def execSkipNeqRegVal (x : Reg) (nn : Byte) (s : State) : Result := s.skipIf (s.reg x != nn)

/-- 5xyn for any n (41_skips.md R123). -/
def execSkipEqRegReg (x y : Reg) (s : State) : Result := s.skipIf (s.reg x == s.reg y)

/-- 9xyn for any n (41_skips.md R124). -/
def execSkipNeqRegReg (x y : Reg) (s : State) : Result := s.skipIf (s.reg x != s.reg y)

/-- Skip on the state of key `V[x]`, which is one of 0..0xF or raises KeyIndexFault (41_skips.md R125, R126). -/
def skipOnKey (opcode : Word) (k : Byte) (down : Bool) (s : State) : Result :=
  if k.toNat > 0xF then s.raise .keyIndexFault opcode (zext16 k)
  else s.skipIf (s.keyDown k.toNat == down)

/-- Ex9E (41_skips.md R125). -/
def execSkipKeyPressed (x : Reg) (s : State) : Result := skipOnKey (encode (.skipKeyPressed x)) (s.reg x) true s

/-- ExA1 (41_skips.md R126). -/
def execSkipKeyNotPressed (x : Reg) (s : State) : Result := skipOnKey (encode (.skipKeyNotPressed x)) (s.reg x) false s

end Sys2Proof.Machine
end

