-- ==== Sys2Proof/Machine/TimersKeys.lean ====
section
/-! DEFINITION. The meanings of 44_timers_keys.md. -/

namespace Sys2Proof.Machine

/-- Fx07 (44_timers_keys.md R190). -/
def execSetRegDelay (x : Reg) (s : State) : Result := (s.setReg x s.dt).advance

/-- Fx15 (44_timers_keys.md R191). -/
def execSetDelayReg (x : Reg) (s : State) : Result := (s.setDT (s.reg x)).advance

/-- Fx18 (44_timers_keys.md R192). -/
def execSetSoundReg (x : Reg) (s : State) : Result := (s.setST (s.reg x)).advance

/-- Fx0A (44_timers_keys.md R193): the least pressed key, or the same instruction again. -/
def execSetRegKey (x : Reg) (s : State) : Result :=
  match s.lowestKey with
  | some k => (s.setReg x (BitVec.ofNat 8 k)).advance
  | none => s.runAgain

end Sys2Proof.Machine
end

