-- ==== Sys2Proof/Machine/Dispatch.lean ====
section
/-! DEFINITION. Dispatch of a decoded instruction to its meaning (40_control_flow.md R102): one arm per constructor. -/

namespace Sys2Proof.Machine

def exec (i : Instr) (s : State) : Host.Outcome State Fault Refusal :=
  match i with
  | .clear => Sys2Proof.Machine.execClear s
  | .ret => Sys2Proof.Machine.execRet s
  | .noOp _ => Sys2Proof.Machine.execNoOp s
  | .jump nnn => Sys2Proof.Machine.execJump nnn s
  | .call nnn => Sys2Proof.Machine.execCall nnn s
  | .skipEqRegVal x nn => Sys2Proof.Machine.execSkipEqRegVal x nn s
  | .skipNeqRegVal x nn => Sys2Proof.Machine.execSkipNeqRegVal x nn s
  | .skipEqRegReg x y => Sys2Proof.Machine.execSkipEqRegReg x y s
  | .setRegVal x nn => Sys2Proof.Machine.execSetRegVal x nn s
  | .addRegVal x nn => Sys2Proof.Machine.execAddRegVal x nn s
  | .setRegReg x y => Sys2Proof.Machine.execSetRegReg x y s
  | .orRegReg x y => Sys2Proof.Machine.execOrRegReg x y s
  | .andRegReg x y => Sys2Proof.Machine.execAndRegReg x y s
  | .xorRegReg x y => Sys2Proof.Machine.execXorRegReg x y s
  | .addRegReg x y => Sys2Proof.Machine.execAddRegReg x y s
  | .subRegReg x y => Sys2Proof.Machine.execSubRegReg x y s
  | .shiftRight x => Sys2Proof.Machine.execShiftRight x s
  | .subReverseRegReg x y => Sys2Proof.Machine.execSubReverseRegReg x y s
  | .shiftLeft x => Sys2Proof.Machine.execShiftLeft x s
  | .skipNeqRegReg x y => Sys2Proof.Machine.execSkipNeqRegReg x y s
  | .setI nnn => Sys2Proof.Machine.execSetI nnn s
  | .jumpOffset nnn => Sys2Proof.Machine.execJumpOffset nnn s
  | .setRegRand x nn => Sys2Proof.Machine.execSetRegRand x nn s
  | .draw x y n => Sys2Proof.Machine.execDraw x y n s
  | .skipKeyPressed x => Sys2Proof.Machine.execSkipKeyPressed x s
  | .skipKeyNotPressed x => Sys2Proof.Machine.execSkipKeyNotPressed x s
  | .setRegDelay x => Sys2Proof.Machine.execSetRegDelay x s
  | .setRegKey x => Sys2Proof.Machine.execSetRegKey x s
  | .setDelayReg x => Sys2Proof.Machine.execSetDelayReg x s
  | .setSoundReg x => Sys2Proof.Machine.execSetSoundReg x s
  | .addIReg x => Sys2Proof.Machine.execAddIReg x s
  | .setISpriteReg x => Sys2Proof.Machine.execSetISpriteReg x s
  | .bcd x => Sys2Proof.Machine.execBcd x s
  | .dump x => Sys2Proof.Machine.execDump x s
  | .load x => Sys2Proof.Machine.execLoad x s

end Sys2Proof.Machine
end

