-- ==== Sys2Proof/Machine/Cycle.lean ====
section
/-! DEFINITION. The step cycle (40_control_flow.md R100 to R104): fetch, decode, execute. -/

namespace Sys2Proof.Machine

/-- A STEP begins: its inputs are presented and the phase is RUNNING (40_control_flow.md R100; 10_state.md R33, R34). -/
def State.begin (s : State) (key : Keys) (rnd : Option Byte) : State :=
  { s with key := key, rnd := rnd, phase := .running }

/-- Decode and execute an opcode; an illegal encoding raises DecodeError with the opcode (40_control_flow.md R102). -/
def dispatch (op : Word) (s : State) : Result :=
  match decode op with
  | .error _ => s.raise .decodeError op op
  | .ok i => exec i s

/-- Fetch, decode, execute; a fetch that faults records opcode 0 (40_control_flow.md R101; 60_exceptions.md R222). -/
def runOne (s : State) : Result :=
  match fetch s with
  | .error a => s.raiseAddress 0 a
  | .ok op => dispatch op s

/-- The operation STEP(KEY, RND): while halted it changes nothing (40_control_flow.md R100, R104). -/
def stepOp (key : Keys) (rnd : Option Byte) (s : State) : Result :=
  if s.halted then .next s else runOne (s.begin key rnd)

end Sys2Proof.Machine
end

