-- ==== Sys2Proof/Machine/HostOps.lean ====
section
/-! DEFINITION. The host's operations (10_state.md R35): INIT, LOAD_ROM, STEP, TICK. -/

namespace Sys2Proof.Machine

/-- INIT (70_reset_and_hazards.md R250): memory holds its reset contents again, PIX is not written, and the fault record
beside `halted` is any record (10_state.md R38, log 10). -/
def initOp (s : State) : State :=
  { s with
    v := Vector.replicate 16 0, i := 0, pc := 0x200, stack := [], dt := 0, st := 0, mem := [],
    halted := false, fault := Config.freeFault s.freeCount, phase := .initDone, freeCount := s.freeCount + 1 }

/-- LOAD_ROM(bytes) (70_reset_and_hazards.md R251): refused outside INIT_DONE and above 3584 bytes. -/
def loadRomOp (bytes : List Byte) (s : State) : Result :=
  if s.phase ≠ .initDone then .refused .loadRomOutsideInitDone
  else if bytes.length > 3584 then .refused .loadRomTooLong
  else .next { s.storeBytes 0x200 bytes with phase := .loaded }

/-- A timer after one TICK: decremented toward 0 (60_exceptions.md R235). -/
def countDown (t : Byte) : Byte := if t.toNat > 0 then t - 1 else t

/-- TICK (60_exceptions.md R235, R236): whatever the phase, halted or not. -/
def tickOp (s : State) : State := { s with dt := countDown s.dt, st := countDown s.st }

/-- The host invokes one operation. -/
def perform (op : HostOp) (s : State) : Result :=
  match op with
  | .init => .next (initOp s)
  | .loadRom bytes => loadRomOp bytes s
  | .step key rnd => stepOp key (some rnd) s
  | .tick => .next (tickOp s)

/-- What the machine does next: the host's next operation, or, with none left, STEP with KEY as the host left it and RND
free (log 6, log 7, log 8). -/
def hostStep (s : State) : Result :=
  match s.host with
  | [] => stepOp s.key none s
  | op :: rest => perform op { s with host := rest }

end Sys2Proof.Machine
end

