-- ==== Sys2Proof/Machine/Step.lean ====
section
/-! DEFINITION. One step of the machine, and the host's placing of an instruction where the next step fetches. -/

namespace Sys2Proof.Machine

/-- One step: the next operation of the host, which is STEP where it has listed none (10_state.md R35; log 8). -/
def step (s : State) : Host.Outcome State Fault Refusal := hostStep s

/-- The state whose very next step fetches and runs the table's word `w` of `nbits` bits: its two bytes lie at pc, the
most significant first, nothing is halted, and the host's next operation is STEP. A pc from which no fetch can succeed
becomes 0x200 (log 9). -/
def State.withFetchWord (s : State) (nbits w : Nat) : State :=
  let op : Word := BitVec.ofNat 16 (w % 2 ^ nbits)
  let pc : Word := if s.pc.toNat + 1 > 0xFFF then 0x200 else s.pc
  { s.storeBytes pc.toNat [firstByte op, secondByte op] with pc := pc, halted := false, host := [] }

end Sys2Proof.Machine
end

