-- ==== Sys2Proof/Safety.lean ====
section
/-! DEFINITION. The terms in which claims are made: what a step leaves unchanged, what it may write, when it faults, the
invariant of the block, and a safe run. -/

namespace Sys2Proof.Machine

/-! ## Frames -/

/-- The elements of the state. -/
inductive Element where
  | v | i | pc | stack | dt | st | mem | pix | halted | fault | phase | key | rnd | host | freeCount | cfg
  deriving DecidableEq, Repr

/-- The element holds in `t` what it holds in `s`; memory byte by byte, through the model's read of one byte. -/
def SameElement (e : Element) (s t : State) : Prop :=
  match e with
  | .v         => ∀ r, t.reg r = s.reg r
  | .i         => t.i = s.i
  | .pc        => t.pc = s.pc
  | .stack     => t.stack = s.stack
  | .dt        => t.dt = s.dt
  | .st        => t.st = s.st
  | .mem       => ∀ a, t.byteAt a = s.byteAt a
  | .pix       => ∀ c r, t.pixel c r = s.pixel c r
  | .halted    => t.halted = s.halted
  | .fault     => t.fault = s.fault
  | .phase     => t.phase = s.phase
  | .key       => t.key = s.key
  | .rnd       => t.rnd = s.rnd
  | .host      => t.host = s.host
  | .freeCount => t.freeCount = s.freeCount
  | .cfg       => t.cfg = s.cfg

/-- Every element but the listed ones is unchanged. -/
def FrameBut (changed : List Element) (s t : State) : Prop := ∀ e, e ∉ changed → SameElement e s t

/-- Every register but the listed ones is unchanged. -/
def RegsBut (changed : List Reg) (s t : State) : Prop := ∀ r, r ∉ changed → t.reg r = s.reg r

/-- Every byte of memory outside the `n` bytes from `base` on reads as before. -/
def MemBut (base n : Nat) (s t : State) : Prop := ∀ a, ¬ (base ≤ a ∧ a < base + n) → t.byteAt a = s.byteAt a

/-- The instruction's whole effect is one register and the advance of the pc. -/
structure WritesRegister (x : Reg) (b : Byte) (s t : State) : Prop where
  result : t.reg x = b
  others : RegsBut [x] s t
  pc     : t.pc = s.pc + 2
  frame  : FrameBut [.v, .pc] s t

/-- The answer of a fault: `halted` and the record are set and nothing else is changed (60_exceptions.md R222). -/
structure FaultsWith (f : FaultRecord) (s t : State) : Prop where
  halted : t.halted = true
  record : t.fault = f
  frame  : FrameBut [.halted, .fault] s t

/-- The instruction's whole effect is the pc. -/
structure WritesPc (target : Word) (s t : State) : Prop where
  pc    : t.pc = target
  frame : FrameBut [.pc] s t

/-- The elements an instruction may write when it raises no fault (10_state.md R23 to R32; 20_memory.md R50). The
counter of free values is the model's own (log 7). -/
def mayWrite : Instr → List Element
  | .clear => [.pc, .pix]
  | .ret | .call _ => [.pc, .stack]
  | .noOp _ | .jump _ | .jumpOffset _ => [.pc]
  | .skipEqRegVal _ _ | .skipNeqRegVal _ _ | .skipEqRegReg _ _ | .skipNeqRegReg _ _ => [.pc]
  | .skipKeyPressed _ | .skipKeyNotPressed _ => [.pc]
  | .setRegVal _ _ | .addRegVal _ _ | .setRegReg _ _ | .orRegReg _ _ | .andRegReg _ _ | .xorRegReg _ _ => [.pc, .v]
  | .addRegReg _ _ | .subRegReg _ _ | .subReverseRegReg _ _ | .shiftRight _ | .shiftLeft _ => [.pc, .v]
  | .setRegRand _ _ => [.pc, .v, .freeCount]
  | .setI _ | .addIReg _ | .setISpriteReg _ => [.pc, .i]
  | .draw _ _ _ => [.pc, .v, .pix]
  | .setRegDelay _ | .setRegKey _ | .load _ => [.pc, .v]
  | .setDelayReg _ => [.pc, .dt]
  | .setSoundReg _ => [.pc, .st]
  | .bcd _ | .dump _ => [.pc, .mem]

/-- The registers an instruction may write: its destination, and VF where 10_state.md R23 lists it as a side effect. -/
def mayWriteReg : Instr → List Reg
  | .clear | .ret | .noOp _ | .jump _ | .call _ | .jumpOffset _ => []
  | .skipEqRegVal _ _ | .skipNeqRegVal _ _ | .skipEqRegReg _ _ | .skipNeqRegReg _ _ => []
  | .skipKeyPressed _ | .skipKeyNotPressed _ => []
  | .setRegVal x _ | .addRegVal x _ | .setRegReg x _ | .orRegReg x _ | .andRegReg x _ | .xorRegReg x _ => [x]
  | .addRegReg x _ | .subRegReg x _ | .subReverseRegReg x _ | .shiftRight x | .shiftLeft x => [x, VF]
  | .setRegRand x _ | .setRegDelay x | .setRegKey x => [x]
  | .setI _ | .addIReg _ | .setISpriteReg _ => []
  | .draw _ _ _ => [VF]
  | .load x => (List.finRange 16).filter (· ≤ x)
  | .setDelayReg _ | .setSoundReg _ | .bcd _ | .dump _ => []

/-- The elements, beside V and pc, that an instruction reads or writes (10_state.md R26 to R34; 20_memory.md R50). -/
def touches : Instr → List Element
  | .clear => [.pix]
  | .ret | .call _ => [.stack]
  | .noOp _ | .jump _ | .jumpOffset _ => []
  | .skipEqRegVal _ _ | .skipNeqRegVal _ _ | .skipEqRegReg _ _ | .skipNeqRegReg _ _ => []
  | .skipKeyPressed _ | .skipKeyNotPressed _ | .setRegKey _ => [.key]
  | .setRegVal _ _ | .addRegVal _ _ | .setRegReg _ _ | .orRegReg _ _ | .andRegReg _ _ | .xorRegReg _ _ => []
  | .addRegReg _ _ | .subRegReg _ _ | .subReverseRegReg _ _ | .shiftRight _ | .shiftLeft _ => []
  | .setRegRand _ _ => [.rnd, .freeCount]
  | .setI _ | .addIReg _ | .setISpriteReg _ => [.i]
  | .draw _ _ _ => [.i, .mem, .pix]
  | .setRegDelay _ | .setDelayReg _ => [.dt]
  | .setSoundReg _ => [.st]
  | .bcd _ | .dump _ | .load _ => [.i, .mem]

/-! ## Faults -/

/-- The record of an AddressFault on `n` bytes from `base` on, none where all of them lie in memory (20_memory.md R55,
R56; 60_exceptions.md R221). -/
def spanFault (pc op : Word) (base n : Nat) : Option FaultRecord :=
  if base + n > 0x1000 ∧ 0 < n then
    some { code := .addressFault, pc := pc, opcode := op, info := BitVec.ofNat 16 (max base 0x1000) }
  else none

/-- The one check of an instruction's own rule: the record of the fault it raises, if any (60_exceptions.md R224). -/
def ownFault (op : Word) (i : Instr) (s : State) : Option FaultRecord :=
  match i with
  | .call _ =>
    if s.cfg.stackLimit = some s.stack.length then some { code := .stackOverflow, pc := s.pc, opcode := op, info := 0 }
    else none
  | .ret => if s.stack = [] then some { code := .stackUnderflow, pc := s.pc, opcode := op, info := 0 } else none
  | .skipKeyPressed x | .skipKeyNotPressed x =>
    if (s.reg x).toNat > 0xF then
      some { code := .keyIndexFault, pc := s.pc, opcode := op, info := BitVec.ofNat 16 (s.reg x).toNat }
    else none
  | .draw _ _ n => spanFault s.pc op s.i.toNat n.val
  | .bcd _ => spanFault s.pc op s.i.toNat 3
  | .dump x | .load x => spanFault s.pc op s.i.toNat (x.val + 1)
  | .clear | .noOp _ | .jump _ | .jumpOffset _ => none
  | .skipEqRegVal _ _ | .skipNeqRegVal _ _ | .skipEqRegReg _ _ | .skipNeqRegReg _ _ => none
  | .setRegVal _ _ | .addRegVal _ _ | .setRegReg _ _ | .orRegReg _ _ | .andRegReg _ _ | .xorRegReg _ _ => none
  | .addRegReg _ _ | .subRegReg _ _ | .subReverseRegReg _ _ | .shiftRight _ | .shiftLeft _ | .setRegRand _ _ => none
  | .setI _ | .addIReg _ | .setISpriteReg _ => none
  | .setRegDelay _ | .setRegKey _ | .setDelayReg _ | .setSoundReg _ => none

/-- The two bytes at pc, big-endian (20_memory.md R61). -/
def State.wordAtPc (s : State) : Word := opcodeOfBytes (s.byteAt s.pc.toNat) (s.byteAt (s.pc.toNat + 1))

/-- The record of the fault that a STEP raises: the first check that fails of the fetch address, the decode and the
instruction's own (60_exceptions.md R221, R224). -/
def stepFault (s : State) : Option FaultRecord :=
  if s.pc.toNat + 1 > 0xFFF then
    some { code := .addressFault, pc := s.pc, opcode := 0, info := BitVec.ofNat 16 (max s.pc.toNat 0x1000) }
  else
    match decode s.wordAtPc with
    | .error _ => some { code := .decodeError, pc := s.pc, opcode := s.wordAtPc, info := s.wordAtPc }
    | .ok i => ownFault s.wordAtPc i s

/-! ## Sprites (45_display.md R204) -/

/-- Some set bit of the `n` sprite rows at I, drawn at (`V[x]`, `V[y]`), lands on pixel (c, r). -/
def spriteHits (s : State) (x y : Reg) (n : Nat) (c : Fin 64) (r : Fin 32) : Prop :=
  ∃ row < n, ∃ col < 8, (s.byteAt (s.i.toNat + row)).getLsbD (7 - col) = true ∧
    c.val = ((s.reg x).toNat + col) % 64 ∧ r.val = ((s.reg y).toNat + row) % 32

/-! ## The invariant and safe runs -/

/-- What holds of the block after INIT and after every operation. -/
structure State.Inv (s : State) : Prop where
  /-- STACK_LIMIT is positive or UNBOUNDED (00_scope.md R6). -/
  params    : s.cfg.wf = true
  /-- Memory is in its canonical form. -/
  memory    : s.mem.wf s.cfg = true
  /-- 40_control_flow.md R112. -/
  pcBound   : s.pc.toNat ≤ 0x10FE
  /-- A pushed return address is at most 0x1000 (40_control_flow.md R107). -/
  returns   : ∀ a ∈ s.stack, a.toNat ≤ 0x1000
  /-- The stack holds at most STACK_LIMIT entries (10_state.md R20, R27). -/
  depth     : ∀ n, s.cfg.stackLimit = some n → s.stack.length ≤ n
  /-- A halted block is in phase RUNNING (60_exceptions.md R222, R223). -/
  haltPhase : s.halted = true → s.phase = .running

/-- `n` steps lead to a state that has not faulted (70_reset_and_hazards.md R253). -/
def SafeRun (n : Nat) (s : State) : Prop := ∃ t, Sys2Proof.core.run n s = .next t ∧ t.halted = false

end Sys2Proof.Machine
end

