-- ==== Sys2Proof/Certificates/Slice0/Obligations.lean ====
section
/-! DEFINITION. The statements for the provers. Each docstring names the rule of spec/ that the statement formalises. -/

open Sys2Proof Sys2Proof.Machine

/-! ## Encoding (30_encoding.md) -/

/-- R72 to R83: every well-formed instruction, with every operand, is what its word decodes to. -/
def Obligations.DecodeOfEncodeIsTheInstruction : Prop :=
  ∀ i : Instr, i.wellFormed = true → decode (encode i) = .ok i

/-- R83: a legal word decodes to a well-formed instruction, and agrees with its encoding in every bit that the
instruction does not ignore. That NoOp keeps its nnn as an operand, and that an ignored field is encoded as 0, is the
model's choice (DESIGN CHOICE, log 13). -/
def Obligations.LegalWordKeepsEveryBitNotIgnored : Prop :=
  ∀ (op : Word) (i : Instr), decode op = .ok i → i.wellFormed = true ∧ op &&& keptBits i = encode i

/-- R77, R78, R79, R81: the decode errors are exactly the three patterns, and each names its opcode. -/
def Obligations.IllegalEncodingsAreExactlyThreePatterns : Prop :=
  ∀ op : Word,
    (decode op = .error (.illegal op) ↔
      (op.toNat / 4096 = 0x8 ∧ op.toNat % 16 ∈ [0x8, 0x9, 0xA, 0xB, 0xC, 0xD, 0xF]) ∨
      (op.toNat / 4096 = 0xE ∧ op.toNat % 256 ∉ [0x9E, 0xA1]) ∨
      (op.toNat / 4096 = 0xF ∧ op.toNat % 256 ∉ [0x07, 0x0A, 0x15, 0x18, 0x1E, 0x29, 0x33, 0x55, 0x65])) ∧
    (∀ e, decode op = .error e → e = .illegal op)

/-- R76: family 0x0 holds Clear, Ret and NoOp, and no decode error. -/
def Obligations.FamilyZeroHasNoDecodeError : Prop :=
  decode 0x00E0#16 = .ok .clear ∧ decode 0x00EE#16 = .ok .ret ∧
  ∀ op : Word, op.toNat ≤ 0x0FFF → op ≠ 0x00E0#16 → op ≠ 0x00EE#16 → decode op = .ok (.noOp (BitVec.ofNat 12 op.toNat))

/-- R86: the decoder gives the instruction of the one row of the opcode table that selects the word, and a decode error
where no row does. -/
def Obligations.DecoderFollowsTheOpcodeTable : Prop :=
  ∀ op : Word,
    (∀ i, decode op = .ok i → tableMnemonic op = some i.mnemonic) ∧
    (∀ e, decode op = .error e → tableMnemonic op = none) ∧
    (opcodeTable.filter (·.selects op)).length ≤ 1

/-- R72, R75, R77 to R79: the fixed digits of each instruction's word, and the place of every operand the instruction uses.
The model's choice (DESIGN CHOICE, log 13), and no rule of the spec: the 0 in the fields that ShiftRight, ShiftLeft,
SkipEqRegReg and SkipNeqRegReg ignore, and the operand nnn that NoOp keeps. -/
def Obligations.EncodedWordsFollowTheFormats : Prop :=
  ∀ (x y : Reg) (n : Fin 16) (nn : Byte) (nnn : BitVec 12),
    (encode .clear).toNat = 0x00E0 ∧ (encode .ret).toNat = 0x00EE ∧
    (encode (.noOp nnn)).toNat = nnn.toNat ∧
    (encode (.jump nnn)).toNat = 0x1000 + nnn.toNat ∧
    (encode (.call nnn)).toNat = 0x2000 + nnn.toNat ∧
    (encode (.skipEqRegVal x nn)).toNat = 0x3000 + x.val * 0x100 + nn.toNat ∧
    (encode (.skipNeqRegVal x nn)).toNat = 0x4000 + x.val * 0x100 + nn.toNat ∧
    (encode (.skipEqRegReg x y)).toNat = 0x5000 + x.val * 0x100 + y.val * 0x10 ∧
    (encode (.setRegVal x nn)).toNat = 0x6000 + x.val * 0x100 + nn.toNat ∧
    (encode (.addRegVal x nn)).toNat = 0x7000 + x.val * 0x100 + nn.toNat ∧
    (encode (.setRegReg x y)).toNat = 0x8000 + x.val * 0x100 + y.val * 0x10 ∧
    (encode (.orRegReg x y)).toNat = 0x8001 + x.val * 0x100 + y.val * 0x10 ∧
    (encode (.andRegReg x y)).toNat = 0x8002 + x.val * 0x100 + y.val * 0x10 ∧
    (encode (.xorRegReg x y)).toNat = 0x8003 + x.val * 0x100 + y.val * 0x10 ∧
    (encode (.addRegReg x y)).toNat = 0x8004 + x.val * 0x100 + y.val * 0x10 ∧
    (encode (.subRegReg x y)).toNat = 0x8005 + x.val * 0x100 + y.val * 0x10 ∧
    (encode (.shiftRight x)).toNat = 0x8006 + x.val * 0x100 ∧
    (encode (.subReverseRegReg x y)).toNat = 0x8007 + x.val * 0x100 + y.val * 0x10 ∧
    (encode (.shiftLeft x)).toNat = 0x800E + x.val * 0x100 ∧
    (encode (.skipNeqRegReg x y)).toNat = 0x9000 + x.val * 0x100 + y.val * 0x10 ∧
    (encode (.setI nnn)).toNat = 0xA000 + nnn.toNat ∧
    (encode (.jumpOffset nnn)).toNat = 0xB000 + nnn.toNat ∧
    (encode (.setRegRand x nn)).toNat = 0xC000 + x.val * 0x100 + nn.toNat ∧
    (encode (.draw x y n)).toNat = 0xD000 + x.val * 0x100 + y.val * 0x10 + n.val ∧
    (encode (.skipKeyPressed x)).toNat = 0xE09E + x.val * 0x100 ∧
    (encode (.skipKeyNotPressed x)).toNat = 0xE0A1 + x.val * 0x100 ∧
    (encode (.setRegDelay x)).toNat = 0xF007 + x.val * 0x100 ∧
    (encode (.setRegKey x)).toNat = 0xF00A + x.val * 0x100 ∧
    (encode (.setDelayReg x)).toNat = 0xF015 + x.val * 0x100 ∧
    (encode (.setSoundReg x)).toNat = 0xF018 + x.val * 0x100 ∧
    (encode (.addIReg x)).toNat = 0xF01E + x.val * 0x100 ∧
    (encode (.setISpriteReg x)).toNat = 0xF029 + x.val * 0x100 ∧
    (encode (.bcd x)).toNat = 0xF033 + x.val * 0x100 ∧
    (encode (.dump x)).toNat = 0xF055 + x.val * 0x100 ∧
    (encode (.load x)).toNat = 0xF065 + x.val * 0x100

/-- R72, R75 to R81: words written out from the spec's encodings, one at least of each format of R72, decode to the
instructions they stand for, and an illegal word to a decode error. -/
def Obligations.WrittenOutWordsDecode : Prop :=
  decode 0b0000000011100000 = .ok .clear ∧
  decode 0b0001101010111100 = .ok (.jump 0xABC) ∧
  decode 0b0011001100010000 = .ok (.skipEqRegVal 3 0x10) ∧
  decode 0b1000000100100111 = .ok (.subReverseRegReg 1 2) ∧
  decode 0b0101000000011111 = .ok (.skipEqRegReg 0 1) ∧
  decode 0b1101000000010101 = .ok (.draw 0 1 5) ∧
  decode 0b1110010110011110 = .ok (.skipKeyPressed 5) ∧
  decode 0b1111001001010101 = .ok (.dump 2) ∧
  decode 0b1000000000001000 = .error (.illegal 0x8008)

/-! ## The step cycle (40_control_flow.md) -/

/-- R100, R101, R102: a STEP of a block that has not faulted presents its inputs, enters phase RUNNING and executes the
instruction that the two bytes at pc decode to. The host names RND in its operation, or leaves it free (log 7, log 8). -/
def Obligations.StepRunsTheDecodedInstruction : Prop :=
  ∀ (s : State) (i : Instr), s.halted = false → s.pc.toNat + 1 ≤ 0xFFF → decode s.wordAtPc = .ok i →
    (s.host = [] → step s = exec i { s with rnd := none, phase := .running }) ∧
    (∀ key rnd rest, s.host = .step key rnd :: rest →
      step s = exec i { s with host := rest, key := key, rnd := some rnd, phase := .running })

/-- R101: a fetch above memory raises AddressFault, and nothing else in the step happens. -/
def Obligations.FetchAboveMemoryFaults : Prop :=
  ∀ (s : State) (key : Keys) (rnd : Option Byte), s.halted = false → s.pc.toNat + 1 > 0xFFF →
    ∃ t, stepOp key rnd s = .next t ∧
      FaultsWith { code := .addressFault, pc := s.pc, opcode := 0, info := BitVec.ofNat 16 (max s.pc.toNat 0x1000) }
        { s with key := key, rnd := rnd, phase := .running } t

/-- R102: an illegal word raises DecodeError with the opcode, and the step makes no other change. -/
def Obligations.IllegalWordFaults : Prop :=
  ∀ (s : State) (key : Keys) (rnd : Option Byte) (e : DecodeError), s.halted = false → s.pc.toNat + 1 ≤ 0xFFF →
    decode s.wordAtPc = .error e →
    ∃ t, stepOp key rnd s = .next t ∧
      FaultsWith { code := .decodeError, pc := s.pc, opcode := s.wordAtPc, info := s.wordAtPc }
        { s with key := key, rnd := rnd, phase := .running } t

/-- R104: STEP while halted changes nothing, whatever its inputs; and no operation but INIT leaves the halted state. -/
def Obligations.HaltedStepChangesNothing : Prop :=
  ∀ s : State, s.halted = true →
    (∀ key rnd, stepOp key rnd s = .next s) ∧
    ∀ op t, op ≠ .init → perform op s = .next t → t.halted = true

/-- R221, R222, R224: the numbers of the five causes; and a STEP faults exactly when the first failing check of its fetch,
its decode and its instruction says so, with that check's record, and every element but the record is as before the step,
the phase as the step set it. -/
def Obligations.StepFaultsExactlyAsListed : Prop :=
  [FaultCode.decodeError, .stackUnderflow, .stackOverflow, .addressFault, .keyIndexFault].map faultNumber =
    [1, 2, 3, 4, 5] ∧
  ∀ (s : State) (key : Keys) (rnd : Option Byte), s.halted = false →
    (∀ f, stepFault s = some f →
      ∃ t, stepOp key rnd s = .next t ∧ t.phase = .running ∧
        FaultsWith f { s with key := key, rnd := rnd, phase := .running } t) ∧
    (stepFault s = none →
      ∃ t, stepOp key rnd s = .next t ∧ t.halted = false ∧ t.fault = s.fault ∧ t.phase = .running)

/-- R251, R253: the machine always has a next state, except where the host's next operation is a LOAD_ROM that the spec
refuses. -/
def Obligations.OnlyLoadRomIsRefused : Prop :=
  ∀ s : State, (∃ t, step s = .next t) ∨
    ∃ bytes rest, s.host = .loadRom bytes :: rest ∧ (s.phase ≠ .initDone ∨ bytes.length > 3584)

/-! ## The host's operations (70_reset_and_hazards.md, 60_exceptions.md) -/

/-- R35: the host's operations are performed one at a time, in the order it invokes them; with none listed, the machine
performs STEP with KEY as it stands and RND free. The list that holds the operations, and what an empty list means, are
the model's own choice (log 6, log 7, log 8). -/
def Obligations.HostOperationsComeInOrder : Prop :=
  ∀ s : State,
    (s.host = [] → step s = stepOp s.key none s) ∧
    ∀ op rest, s.host = op :: rest →
      step s = perform op { s with host := rest } ∧ ∀ t, step s = .next t → t.host = rest

/-- R250: INIT, in any state, a halted one too; and it is the only way out of the halted state. What it leaves in the rest
of the fault record is open and not stated. -/
def Obligations.InitSetsEveryResetValue : Prop :=
  (∀ s : State, ∃ t, perform .init s = .next t ∧
    (∀ r, t.reg r = 0) ∧ t.i = 0 ∧ t.pc = 0x200 ∧ t.stack = [] ∧ t.dt = 0 ∧ t.st = 0 ∧
    (∀ (d : Fin 16) (k : Fin 5), t.byteAt (5 * d.val + k.val) = s.cfg.font[d][k]) ∧
    (∀ a, 0x50 ≤ a → a ≤ 0xFFF → t.byteAt a = (Memory.lookup s.cfg.memInit a).getD 0) ∧
    t.halted = false ∧ t.phase = .initDone ∧
    FrameBut [.v, .i, .pc, .stack, .dt, .st, .mem, .halted, .fault, .phase, .freeCount] s t) ∧
  ∀ (s t : State) (op : HostOp), s.halted = true → perform op s = .next t → t.halted = false → op = .init

/-- R251: LOAD_ROM in phase INIT_DONE copies up to 3584 bytes to 0x200 and up, and is refused otherwise. -/
def Obligations.LoadRomCopiesTheImageOrIsRefused : Prop :=
  ∀ (s : State) (bytes : List Byte),
    (s.phase = .initDone → bytes.length ≤ 3584 →
      ∃ t, perform (.loadRom bytes) s = .next t ∧
        (∀ k (h : k < bytes.length), t.byteAt (0x200 + k) = bytes[k]) ∧
        MemBut 0x200 bytes.length s t ∧ t.phase = .loaded ∧ FrameBut [.mem, .phase] s t) ∧
    (s.phase ≠ .initDone ∨ bytes.length > 3584 → ∃ r, perform (.loadRom bytes) s = .refused r)

/-- R235, R236: TICK takes one from each timer that is not 0 and changes nothing else, in every phase and while halted. -/
def Obligations.TickDecrementsBothTimers : Prop :=
  ∀ s : State, ∃ t, perform .tick s = .next t ∧
    t.dt.toNat = s.dt.toNat - 1 ∧ t.st.toNat = s.st.toNat - 1 ∧ FrameBut [.dt, .st] s t

/-- R38: the state after INIT of a machine with parameters `c` whose display holds FB_INIT; State.reset is such a
state for some parameters that R6 allows. Only elements the spec gives a value are stated. -/
def Obligations.ResetHoldsTheSpecsValues : Prop :=
  (∀ c : Config,
    (∀ r, (State.start c).reg r = 0) ∧ (State.start c).i = 0 ∧ (State.start c).pc = 0x200 ∧
    (State.start c).stack = [] ∧ (State.start c).dt = 0 ∧ (State.start c).st = 0 ∧
    (∀ (d : Fin 16) (k : Fin 5), (State.start c).byteAt (5 * d.val + k.val) = c.font[d][k]) ∧
    (∀ a, 0x50 ≤ a → a ≤ 0xFFF → (State.start c).byteAt a = (Memory.lookup c.memInit a).getD 0) ∧
    (∀ col row, (State.start c).pixel col row = pixelOf c.fbInit col row) ∧
    (State.start c).halted = false ∧ (State.start c).phase = .initDone) ∧
  ∃ c : Config, c.wf = true ∧ State.reset = State.start c

/-! ## Control flow (40_control_flow.md) -/

/-- R105: NoOp only advances the pc. -/
def Obligations.NoOpOnlyAdvancesThePc : Prop :=
  ∀ (s : State) (nnn : BitVec 12), ∃ t, exec (.noOp nnn) s = .next t ∧ WritesPc (s.pc + 2) s t

/-- R106: Jump sets the pc to its target, odd targets and targets below 2 too. -/
def Obligations.JumpSetsThePc : Prop :=
  ∀ (s : State) (nnn : BitVec 12), ∃ t, exec (.jump nnn) s = .next t ∧
    t.pc.toNat = nnn.toNat ∧ FrameBut [.pc] s t

/-- R107: Call pushes the address after it and jumps, or raises StackOverflow when the stack holds STACK_LIMIT entries. -/
def Obligations.CallPushesTheReturnAddress : Prop :=
  ∀ (s : State) (nnn : BitVec 12),
    (s.cfg.stackLimit ≠ some s.stack.length →
      ∃ t, exec (.call nnn) s = .next t ∧ t.stack = s.stack ++ [s.pc + 2] ∧ t.pc.toNat = nnn.toNat ∧
        FrameBut [.pc, .stack] s t) ∧
    (s.cfg.stackLimit = some s.stack.length →
      ∃ t, exec (.call nnn) s = .next t ∧
        FaultsWith { code := .stackOverflow, pc := s.pc, opcode := encode (.call nnn), info := 0 } s t)

/-- R108: Ret takes the last entry off the stack and lands on it, or raises StackUnderflow when the stack is empty. -/
def Obligations.RetReturnsToTheLastEntry : Prop :=
  ∀ s : State,
    (∀ rest a, s.stack = rest ++ [a] →
      ∃ t, exec .ret s = .next t ∧ t.pc = a ∧ t.stack = rest ∧ FrameBut [.pc, .stack] s t) ∧
    (s.stack = [] →
      ∃ t, exec .ret s = .next t ∧
        FaultsWith { code := .stackUnderflow, pc := s.pc, opcode := 0x00EE, info := 0 } s t)

/-- R109: JumpOffset adds `V[0]`, and the sum is not masked. -/
def Obligations.JumpOffsetAddsV0 : Prop :=
  ∀ (s : State) (nnn : BitVec 12), ∃ t, exec (.jumpOffset nnn) s = .next t ∧
    t.pc.toNat = nnn.toNat + (s.reg 0).toNat ∧ FrameBut [.pc] s t

/-- R107, R108, R111: a Ret after a Call lands on the instruction after the Call, with the stack as it was. -/
def Obligations.RetAfterCallLandsAfterTheCall : Prop :=
  ∀ (s : State) (nnn : BitVec 12), s.cfg.stackLimit ≠ some s.stack.length →
    ∃ t u, exec (.call nnn) s = .next t ∧ exec .ret t = .next u ∧
      u.stack = s.stack ∧ WritesPc (s.pc + 2) s u

/-! ## Skips (41_skips.md) -/

/-- R120 to R124: the four register skips go on by 4 when their test holds and by 2 otherwise, and write nothing else. -/
def Obligations.RegisterSkipsCompareAndSkip : Prop :=
  ∀ (s : State) (x y : Reg) (nn : Byte),
    (∃ t, exec (.skipEqRegVal x nn) s = .next t ∧
      WritesPc (if s.reg x = nn then s.pc + 4 else s.pc + 2) s t) ∧
    (∃ t, exec (.skipNeqRegVal x nn) s = .next t ∧
      WritesPc (if s.reg x ≠ nn then s.pc + 4 else s.pc + 2) s t) ∧
    (∃ t, exec (.skipEqRegReg x y) s = .next t ∧
      WritesPc (if s.reg x = s.reg y then s.pc + 4 else s.pc + 2) s t) ∧
    (∃ t, exec (.skipNeqRegReg x y) s = .next t ∧
      WritesPc (if s.reg x ≠ s.reg y then s.pc + 4 else s.pc + 2) s t)

/-- R125, R126: the key skips test the key `V[x]`, and raise KeyIndexFault with `V[x]` where it is above 0xF. -/
def Obligations.KeySkipsTestTheKeyOrFault : Prop :=
  ∀ (s : State) (x : Reg),
    ((s.reg x).toNat ≤ 0xF →
      (∃ t, exec (.skipKeyPressed x) s = .next t ∧
        WritesPc (if s.key.getLsbD (s.reg x).toNat = true then s.pc + 4 else s.pc + 2) s t) ∧
      (∃ t, exec (.skipKeyNotPressed x) s = .next t ∧
        WritesPc (if s.key.getLsbD (s.reg x).toNat = false then s.pc + 4 else s.pc + 2) s t)) ∧
    ((s.reg x).toNat > 0xF →
      (∃ t, exec (.skipKeyPressed x) s = .next t ∧
        FaultsWith { code := .keyIndexFault, pc := s.pc, opcode := encode (.skipKeyPressed x),
                     info := BitVec.ofNat 16 (s.reg x).toNat } s t) ∧
      (∃ t, exec (.skipKeyNotPressed x) s = .next t ∧
        FaultsWith { code := .keyIndexFault, pc := s.pc, opcode := encode (.skipKeyNotPressed x),
                     info := BitVec.ofNat 16 (s.reg x).toNat } s t))

/-! ## Arithmetic and logic (42_alu.md) -/

/-- R142, R144: the two register loads. -/
def Obligations.RegisterLoadsWriteOneRegister : Prop :=
  ∀ (s : State) (x y : Reg) (nn : Byte),
    (∃ t, exec (.setRegVal x nn) s = .next t ∧ WritesRegister x nn s t) ∧
    (∃ t, exec (.setRegReg x y) s = .next t ∧ WritesRegister x (s.reg y) s t)

/-- R143: the immediate add wraps mod 256 and writes no flag. -/
def Obligations.AddRegValWrapsWithoutFlag : Prop :=
  ∀ (s : State) (x : Reg) (nn : Byte), ∃ t, exec (.addRegVal x nn) s = .next t ∧
    WritesRegister x (BitVec.ofNat 8 (((s.reg x).toNat + nn.toNat) % 256)) s t

/-- R145, R146, R147: the three logic instructions work bit by bit and write no flag. -/
def Obligations.LogicWorksBitByBitWithoutFlag : Prop :=
  ∀ (s : State) (x y : Reg),
    (∃ t b, exec (.orRegReg x y) s = .next t ∧ WritesRegister x b s t ∧
      ∀ k < 8, b.getLsbD k = ((s.reg x).getLsbD k || (s.reg y).getLsbD k)) ∧
    (∃ t b, exec (.andRegReg x y) s = .next t ∧ WritesRegister x b s t ∧
      ∀ k < 8, b.getLsbD k = ((s.reg x).getLsbD k && (s.reg y).getLsbD k)) ∧
    (∃ t b, exec (.xorRegReg x y) s = .next t ∧ WritesRegister x b s t ∧
      ∀ k < 8, b.getLsbD k = ((s.reg x).getLsbD k ^^ (s.reg y).getLsbD k))

/-- R141, R148: the sum mod 256 and the carry; with x = 0xF the carry stays. -/
def Obligations.AddRegRegSetsSumAndCarry : Prop :=
  ∀ (s : State) (x y : Reg), ∃ t, exec (.addRegReg x y) s = .next t ∧
    (x ≠ VF → (t.reg x).toNat = ((s.reg x).toNat + (s.reg y).toNat) % 256) ∧
    t.reg VF = (if (s.reg x).toNat + (s.reg y).toNat > 255 then 1 else 0) ∧
    RegsBut [x, VF] s t ∧ t.pc = s.pc + 2 ∧ FrameBut [.v, .pc] s t

/-- R141, R149, R151: the difference mod 256, either way round, and NOT borrow; with x = 0xF the flag stays. -/
def Obligations.SubtractsSetDifferenceAndNoBorrow : Prop :=
  ∀ (s : State) (x y : Reg),
    (∃ t, exec (.subRegReg x y) s = .next t ∧
      (x ≠ VF → (t.reg x).toNat = (256 + (s.reg x).toNat - (s.reg y).toNat) % 256) ∧
      t.reg VF = (if (s.reg x).toNat ≥ (s.reg y).toNat then 1 else 0) ∧
      RegsBut [x, VF] s t ∧ t.pc = s.pc + 2 ∧ FrameBut [.v, .pc] s t) ∧
    (∃ t, exec (.subReverseRegReg x y) s = .next t ∧
      (x ≠ VF → (t.reg x).toNat = (256 + (s.reg y).toNat - (s.reg x).toNat) % 256) ∧
      t.reg VF = (if (s.reg y).toNat ≥ (s.reg x).toNat then 1 else 0) ∧
      RegsBut [x, VF] s t ∧ t.pc = s.pc + 2 ∧ FrameBut [.v, .pc] s t)

/-- R141, R150: half of `V[x]`, and its old bit 0 in VF; with x = 0xF the flag is shifted too, which leaves 0. -/
def Obligations.ShiftRightHalvesAndKeepsBitZero : Prop :=
  ∀ (s : State) (x : Reg), ∃ t, exec (.shiftRight x) s = .next t ∧
    (x ≠ VF → (t.reg x).toNat = (s.reg x).toNat / 2 ∧ (t.reg VF).toNat = (s.reg x).toNat % 2) ∧
    (x = VF → t.reg VF = 0) ∧
    RegsBut [x, VF] s t ∧ t.pc = s.pc + 2 ∧ FrameBut [.v, .pc] s t

/-- R141, R152: twice `V[x]` mod 256, and its old bit 7 in VF; with x = 0xF the flag is shifted too: 2 or 0. -/
def Obligations.ShiftLeftDoublesAndKeepsBitSeven : Prop :=
  ∀ (s : State) (x : Reg), ∃ t, exec (.shiftLeft x) s = .next t ∧
    (x ≠ VF → (t.reg x).toNat = (s.reg x).toNat * 2 % 256 ∧ (t.reg VF).toNat = (s.reg x).toNat / 128) ∧
    (x = VF → t.reg VF = if (s.reg VF).toNat ≥ 128 then 2 else 0) ∧
    RegsBut [x, VF] s t ∧ t.pc = s.pc + 2 ∧ FrameBut [.v, .pc] s t

/-- R153: RND AND nn, for the byte the host names and, where it names none, for some byte: any (log 7). The counter of free
values is the model's own and no element of the block, so the frame leaves it out. -/
def Obligations.SetRegRandMasksTheRandomByte : Prop :=
  ∀ (s : State) (x : Reg) (nn : Byte), ∃ t r, exec (.setRegRand x nn) s = .next t ∧
    (∀ q, s.rnd = some q → q = r) ∧ t.reg x = r &&& nn ∧
    RegsBut [x] s t ∧ t.pc = s.pc + 2 ∧ FrameBut [.v, .pc, .freeCount] s t

/-! ## Index register and memory (43_index_memory.md, 20_memory.md) -/

/-- R171, R172: SetI loads an address, AddIReg adds mod 2^16 and writes no flag. -/
def Obligations.IndexWritersSetI : Prop :=
  ∀ (s : State) (x : Reg) (nnn : BitVec 12),
    (∃ t, exec (.setI nnn) s = .next t ∧ t.i.toNat = nnn.toNat ∧
      t.pc = s.pc + 2 ∧ FrameBut [.i, .pc] s t) ∧
    (∃ t, exec (.addIReg x) s = .next t ∧ t.i.toNat = (s.i.toNat + (s.reg x).toNat) % 65536 ∧
      t.pc = s.pc + 2 ∧ FrameBut [.i, .pc] s t)

/-- R173 (and R37): five times the unmasked digit; with the font area as INIT left it, the five bytes at I are the glyph of
a digit up to F. -/
def Obligations.SetISpriteRegPointsAtTheGlyph : Prop :=
  ∀ (s : State) (x : Reg), ∃ t, exec (.setISpriteReg x) s = .next t ∧
    t.i.toNat = 5 * (s.reg x).toNat ∧ t.pc = s.pc + 2 ∧ FrameBut [.i, .pc] s t ∧
    ∀ d : Fin 16, (s.reg x).toNat = d.val → (∀ a < 80, s.mem.lookup a = none) →
      ∀ k : Fin 5, t.byteAt (t.i.toNat + k.val) = s.cfg.font[d][k]

/-- R62, R170, R174: BCD stores the three digits at I, I + 1, I + 2, or faults and writes nothing. -/
def Obligations.BcdStoresThreeDigits : Prop :=
  ∀ (s : State) (x : Reg),
    (s.indexBase + 2 ≤ 0xFFF →
      ∃ t, exec (.bcd x) s = .next t ∧
        (t.byteAt s.indexBase).toNat = (s.reg x).toNat / 100 ∧
        (t.byteAt (s.indexBase + 1)).toNat = (s.reg x).toNat / 10 % 10 ∧
        (t.byteAt (s.indexBase + 2)).toNat = (s.reg x).toNat % 10 ∧
        MemBut s.indexBase 3 s t ∧ t.pc = s.pc + 2 ∧ FrameBut [.mem, .pc] s t) ∧
    (s.indexBase + 2 > 0xFFF →
      ∃ t, exec (.bcd x) s = .next t ∧
        FaultsWith { code := .addressFault, pc := s.pc, opcode := encode (.bcd x),
                     info := BitVec.ofNat 16 (max s.indexBase 0x1000) } s t)

/-- R62, R170, R175: Dump stores `V[0..x]` from I on and leaves I, or faults and writes nothing. -/
def Obligations.DumpStoresTheRegisters : Prop :=
  ∀ (s : State) (x : Reg),
    (s.indexBase + x.val ≤ 0xFFF →
      ∃ t, exec (.dump x) s = .next t ∧
        (∀ r : Reg, r ≤ x → t.byteAt (s.indexBase + r.val) = s.reg r) ∧
        MemBut s.indexBase (x.val + 1) s t ∧ t.pc = s.pc + 2 ∧ FrameBut [.mem, .pc] s t) ∧
    (s.indexBase + x.val > 0xFFF →
      ∃ t, exec (.dump x) s = .next t ∧
        FaultsWith { code := .addressFault, pc := s.pc, opcode := encode (.dump x),
                     info := BitVec.ofNat 16 (max s.indexBase 0x1000) } s t)

/-- R62, R170, R176: Load reads `V[0..x]` from I on and leaves I, or faults and writes no register. -/
def Obligations.LoadReadsTheRegisters : Prop :=
  ∀ (s : State) (x : Reg),
    (s.indexBase + x.val ≤ 0xFFF →
      ∃ t, exec (.load x) s = .next t ∧
        (∀ r : Reg, t.reg r = if r ≤ x then s.byteAt (s.indexBase + r.val) else s.reg r) ∧
        t.pc = s.pc + 2 ∧ FrameBut [.v, .pc] s t) ∧
    (s.indexBase + x.val > 0xFFF →
      ∃ t, exec (.load x) s = .next t ∧
        FaultsWith { code := .addressFault, pc := s.pc, opcode := encode (.load x),
                     info := BitVec.ofNat 16 (max s.indexBase 0x1000) } s t)

/-- R170, R175, R176: a Load after a Dump of the same registers, where both lie in memory, restores all of V. -/
def Obligations.LoadAfterDumpRestoresTheRegisters : Prop :=
  ∀ (s : State) (x : Reg), s.indexBase + x.val ≤ 0xFFF →
    ∃ t u, exec (.dump x) s = .next t ∧ exec (.load x) t = .next u ∧ (∀ r, u.reg r = s.reg r)

/-- R65: a Dump over the next instruction's two bytes is what the next fetch reads. -/
def Obligations.DumpIsSeenByTheNextFetch : Prop :=
  ∀ (s : State) (x : Reg), 1 ≤ x.val → s.indexBase + x.val ≤ 0xFFF → s.i = s.pc + 2 →
    ∃ t, exec (.dump x) s = .next t ∧ t.wordAtPc = opcodeOfBytes (s.reg 0) (s.reg 1)

/-! ## Timers and the key wait (44_timers_keys.md) -/

/-- R190, R191, R192: the three moves between a register and a timer. -/
def Obligations.TimerMovesCopyOneByte : Prop :=
  ∀ (s : State) (x : Reg),
    (∃ t, exec (.setRegDelay x) s = .next t ∧ WritesRegister x s.dt s t) ∧
    (∃ t, exec (.setDelayReg x) s = .next t ∧ t.dt = s.reg x ∧ t.pc = s.pc + 2 ∧ FrameBut [.dt, .pc] s t) ∧
    (∃ t, exec (.setSoundReg x) s = .next t ∧ t.st = s.reg x ∧ t.pc = s.pc + 2 ∧ FrameBut [.st, .pc] s t)

/-- R193: the key wait stores the least pressed key and goes on, or leaves every element, the pc too, as it is. -/
def Obligations.KeyWaitTakesTheLeastPressedKey : Prop :=
  ∀ (s : State) (x : Reg),
    (∀ k < 16, s.key.getLsbD k = true → (∀ j < k, s.key.getLsbD j = false) →
      ∃ t, exec (.setRegKey x) s = .next t ∧ WritesRegister x (BitVec.ofNat 8 k) s t) ∧
    ((∀ k < 16, s.key.getLsbD k = false) →
      ∃ t, exec (.setRegKey x) s = .next t ∧ FrameBut [] s t)

/-! ## Display (45_display.md) -/

/-- R203: Clear turns every pixel off and writes nothing else but the pc. -/
def Obligations.ClearTurnsEveryPixelOff : Prop :=
  ∀ s : State, ∃ t, exec .clear s = .next t ∧
    (∀ c r, t.pixel c r = false) ∧ t.pc = s.pc + 2 ∧ FrameBut [.pix, .pc] s t

/-- R204, R205: Draw toggles exactly the pixels that set bits of the sprite land on, with both sums wrapping, and VF is 1
exactly when one of them was on; where a sprite byte lies above memory it faults and changes no pixel and no register. -/
def Obligations.DrawTogglesTheSpritesPixels : Prop :=
  ∀ (s : State) (x y : Reg) (n : Fin 16),
    (n.val = 0 ∨ s.indexBase + n.val ≤ 0x1000 →
      ∃ t, exec (.draw x y n) s = .next t ∧
        (∀ c r, (spriteHits s x y n.val c r → t.pixel c r = !s.pixel c r) ∧
          (¬ spriteHits s x y n.val c r → t.pixel c r = s.pixel c r)) ∧
        ((∃ c r, spriteHits s x y n.val c r ∧ s.pixel c r = true) → t.reg VF = 1) ∧
        ((¬ ∃ c r, spriteHits s x y n.val c r ∧ s.pixel c r = true) → t.reg VF = 0) ∧
        RegsBut [VF] s t ∧ t.pc = s.pc + 2 ∧ FrameBut [.v, .pix, .pc] s t) ∧
    (n.val ≠ 0 ∧ s.indexBase + n.val > 0x1000 →
      ∃ t, exec (.draw x y n) s = .next t ∧
        FaultsWith { code := .addressFault, pc := s.pc, opcode := encode (.draw x y n),
                     info := BitVec.ofNat 16 (max s.indexBase 0x1000) } s t)

/-- R206: the same draw a second time, at the same place, restores every pixel, and sets VF exactly when the first draw
turned a pixel on. -/
def Obligations.DrawTwiceRestoresTheDisplay : Prop :=
  ∀ (s t : State) (x y : Reg) (n : Fin 16), n.val = 0 ∨ s.indexBase + n.val ≤ 0x1000 →
    exec (.draw x y n) s = .next t → t.reg x = s.reg x → t.reg y = s.reg y →
    ∃ u, exec (.draw x y n) t = .next u ∧ (∀ c r, u.pixel c r = s.pixel c r) ∧
      (u.reg VF = 1 ↔ ∃ c r, s.pixel c r = false ∧ t.pixel c r = true)

/-- R201: the host's view of pixel (c, r) is four equal bytes, 0xFF for on and 0x00 for off. -/
def Obligations.HostSeesFourBytesPerPixel : Prop :=
  ∀ (s : State) (c : Fin 64) (r : Fin 32) (k : Fin 4) (j : Fin 8192), j.val = 4 * (64 * r.val + c.val) + k.val →
    s.frameByte j = if s.pixel c r = true then 0xFF else 0x00

/-! ## Rules of the whole machine -/

/-- R26 to R32, R50, R103: an instruction that raises no fault changes no element but those its rule writes. -/
def Obligations.EachInstructionWritesOnlyItsElements : Prop :=
  ∀ (i : Instr) (s t : State), exec i s = .next t → s.halted = false → t.halted = false → FrameBut (mayWrite i) s t

/-- R21, R23: an instruction changes no register but its destination and, where R23 lists it, VF. -/
def Obligations.EachInstructionWritesOnlyItsRegisters : Prop :=
  ∀ (i : Instr) (s t : State), exec i s = .next t → RegsBut (mayWriteReg i) s t

/-- R33: only the three key instructions read KEY; on any other, another KEY changes nothing else. -/
def Obligations.OnlyKeyInstructionsReadKey : Prop :=
  ∀ (i : Instr) (s t : State) (k : Keys),
    (∀ x, i ≠ .skipKeyPressed x) → (∀ x, i ≠ .skipKeyNotPressed x) → (∀ x, i ≠ .setRegKey x) →
    exec i s = .next t → exec i { s with key := k } = .next { t with key := k }

/-- R34: only SetRegRand reads RND; on any other instruction, another RND changes nothing else. -/
def Obligations.OnlySetRegRandReadsRandom : Prop :=
  ∀ (i : Instr) (s t : State) (r : Option Byte) (n : Nat), (∀ x nn, i ≠ .setRegRand x nn) →
    exec i s = .next t → exec i { s with rnd := r, freeCount := n } = .next { t with rnd := r, freeCount := n }

/-- R26 to R32, R36, R50: an element that an instruction neither reads nor writes has no influence on it: I, the stack, DT,
ST, memory and PIX where `touches` does not list them, the phase on every instruction, and the fault record on every
instruction that raises no fault. -/
def Obligations.UntouchedElementsHaveNoInfluence : Prop :=
  ∀ (i : Instr) (s t : State), exec i s = .next t →
    (∀ w, .i ∉ touches i → exec i { s with i := w } = .next { t with i := w }) ∧
    (∀ l, .stack ∉ touches i → exec i { s with stack := l } = .next { t with stack := l }) ∧
    (∀ b, .dt ∉ touches i → exec i { s with dt := b } = .next { t with dt := b }) ∧
    (∀ b, .st ∉ touches i → exec i { s with st := b } = .next { t with st := b }) ∧
    (∀ m, .mem ∉ touches i → exec i { s with mem := m } = .next { t with mem := m }) ∧
    (∀ p, .pix ∉ touches i → exec i { s with pix := p } = .next { t with pix := p }) ∧
    (∀ ph, exec i { s with phase := ph } = .next { t with phase := ph }) ∧
    (∀ f, s.halted = false → t.halted = false → exec i { s with fault := f } = .next { t with fault := f })

/-- R6: no operation changes the parameters of the machine. -/
def Obligations.StepKeepsTheParameters : Prop :=
  ∀ s t : State, step s = .next t → t.cfg = s.cfg

/-- R112: pc after any STEP that raises no fault is at most 0x10FE, if no return address on the stack is above 0x1000 (an
invariant: R107). -/
def Obligations.PcStaysBelow10FF : Prop :=
  ∀ (s t : State) (key : Keys) (rnd : Option Byte), s.halted = false → (∀ a ∈ s.stack, a.toNat ≤ 0x1000) →
    stepOp key rnd s = .next t → t.halted = false → t.pc.toNat ≤ 0x10FE

/-- The invariant holds right after INIT, for all parameters that R6 allows. -/
def Obligations.StartMeetsTheInvariant : Prop :=
  ∀ c : Config, c.wf = true → (State.start c).Inv

/-- R20, R27, R107, R112, R222: every step, whatever operation of the host it performs, keeps the invariant. -/
def Obligations.StepKeepsTheInvariant : Prop :=
  ∀ s t : State, s.Inv → step s = .next t → t.Inv

/-- R36, R63: any number of steps from a state that meets the invariant, whatever the host invokes, leads to one that does
or ends at a refused LOAD_ROM. -/
def Obligations.EveryRunKeepsTheInvariant : Prop :=
  ∀ (n : Nat) (s : State), s.Inv →
    (∃ t, core.run n s = .next t ∧ t.Inv) ∨ ∃ r, core.run n s = .refused r ∧
      (r = .loadRomOutsideInitDone ∨ r = .loadRomTooLong)

/-- The host's placing of a word: from any state, the next step runs the instruction of a legal word (log 9). -/
def Obligations.PlacedWordRunsNext : Prop :=
  ∀ (s : State) (op : Word) (i : Instr), decode op = .ok i →
    decodeTableWord 16 op.toNat = some i ∧
    ∃ u, step (s.withFetchWord 16 op.toNat) = exec i u ∧
      FrameBut [.mem, .pc, .halted, .phase, .rnd, .host] s u ∧
      (s.pc.toNat + 1 ≤ 0xFFF → u.pc = s.pc ∧ MemBut s.pc.toNat 2 s u)
end

