-- ==== Sys2Proof/Laws/Decode.lean ====
section
/-! SUPPORT. The fields of an encoded word, and its number. -/

namespace Sys2Proof

theorem regBits_toFin (r : Reg) : (regBits r).toFin = r := rfl

@[simp] theorem regBits_toNat (r : Reg) : (regBits r).toNat = r.val := rfl

theorem shiftLeft_or_eq {a b n : Nat} (h : b < 2 ^ n) : a <<< n ||| b = a * 2 ^ n + b := by
  rw [← Nat.shiftLeft_add_eq_or_of_lt h, Nat.shiftLeft_eq]

/-! ## Words as numbers (30_encoding.md R72) -/

theorem wordNNN_toNat (h : BitVec 4) (nnn : BitVec 12) : (wordNNN h nnn).toNat = h.toNat * 4096 + nnn.toNat := by
  rw [wordNNN, BitVec.toNat_append, shiftLeft_or_eq nnn.isLt]; omega

theorem wordXNN_toNat (h : BitVec 4) (x : Reg) (nn : Byte) :
    (wordXNN h x nn).toNat = h.toNat * 4096 + x.val * 256 + nn.toNat := by
  have hx := x.isLt
  rw [wordXNN, BitVec.toNat_append, shiftLeft_or_eq (regBits x ++ nn).isLt, BitVec.toNat_append,
    shiftLeft_or_eq nn.isLt, regBits_toNat]
  omega

theorem wordXYN_toNat (h : BitVec 4) (x y : Reg) (n : BitVec 4) :
    (wordXYN h x y n).toNat = h.toNat * 4096 + x.val * 256 + y.val * 16 + n.toNat := by
  rw [wordXYN, BitVec.toNat_append, shiftLeft_or_eq (regBits x ++ (regBits y ++ n)).isLt, BitVec.toNat_append,
    shiftLeft_or_eq (regBits y ++ n).isLt, BitVec.toNat_append, shiftLeft_or_eq n.isLt, regBits_toNat, regBits_toNat]
  omega

/-! ## Fields as numbers (30_encoding.md R71) -/

theorem fieldH_toNat (op : Word) : (fieldH op).toNat = op.toNat / 4096 := by
  have := op.isLt
  simp only [fieldH, BitVec.extractLsb'_toNat, Nat.shiftRight_eq_div_pow]; omega

theorem fieldX_val (op : Word) : (fieldX op).val = op.toNat / 256 % 16 := by
  show ((op.extractLsb' 8 4).toNat) = _
  simp only [BitVec.extractLsb'_toNat, Nat.shiftRight_eq_div_pow, Nat.reducePow]

theorem fieldY_val (op : Word) : (fieldY op).val = op.toNat / 16 % 16 := by
  show ((op.extractLsb' 4 4).toNat) = _
  simp only [BitVec.extractLsb'_toNat, Nat.shiftRight_eq_div_pow, Nat.reducePow]

theorem fieldN_toNat (op : Word) : (fieldN op).toNat = op.toNat % 16 := by
  simp only [fieldN, BitVec.extractLsb'_toNat, Nat.shiftRight_zero, Nat.reducePow]

theorem fieldNN_toNat (op : Word) : (fieldNN op).toNat = op.toNat % 256 := by
  simp only [fieldNN, BitVec.extractLsb'_toNat, Nat.shiftRight_zero, Nat.reducePow]

theorem fieldNNN_toNat (op : Word) : (fieldNNN op).toNat = op.toNat % 4096 := by
  simp only [fieldNNN, BitVec.extractLsb'_toNat, Nat.shiftRight_zero, Nat.reducePow]

/-! ## Fields of words -/

section
variable (h n : BitVec 4) (x y : Reg) (nn : Byte) (nnn : BitVec 12)

@[simp] theorem fieldH_wordNNN : fieldH (wordNNN h nnn) = h := by
  apply BitVec.eq_of_toNat_eq; rw [fieldH_toNat, wordNNN_toNat]; have := nnn.isLt; omega
@[simp] theorem fieldNNN_wordNNN : fieldNNN (wordNNN h nnn) = nnn := by
  apply BitVec.eq_of_toNat_eq; rw [fieldNNN_toNat, wordNNN_toNat]; have := nnn.isLt; omega
@[simp] theorem fieldH_wordXNN : fieldH (wordXNN h x nn) = h := by
  apply BitVec.eq_of_toNat_eq; rw [fieldH_toNat, wordXNN_toNat]; have := nn.isLt; have := x.isLt; omega
@[simp] theorem fieldX_wordXNN : fieldX (wordXNN h x nn) = x := by
  apply Fin.ext; rw [fieldX_val, wordXNN_toNat]; have := nn.isLt; have := x.isLt; omega
@[simp] theorem fieldNN_wordXNN : fieldNN (wordXNN h x nn) = nn := by
  apply BitVec.eq_of_toNat_eq; rw [fieldNN_toNat, wordXNN_toNat]; have := nn.isLt; have := x.isLt; omega
@[simp] theorem fieldH_wordXYN : fieldH (wordXYN h x y n) = h := by
  apply BitVec.eq_of_toNat_eq
  rw [fieldH_toNat, wordXYN_toNat]; have := n.isLt; have := x.isLt; have := y.isLt; omega
@[simp] theorem fieldX_wordXYN : fieldX (wordXYN h x y n) = x := by
  apply Fin.ext; rw [fieldX_val, wordXYN_toNat]; have := n.isLt; have := x.isLt; have := y.isLt; omega
@[simp] theorem fieldY_wordXYN : fieldY (wordXYN h x y n) = y := by
  apply Fin.ext; rw [fieldY_val, wordXYN_toNat]; have := n.isLt; have := x.isLt; have := y.isLt; omega
@[simp] theorem fieldN_wordXYN : fieldN (wordXYN h x y n) = n := by
  apply BitVec.eq_of_toNat_eq
  rw [fieldN_toNat, wordXYN_toNat]; have := n.isLt; have := x.isLt; have := y.isLt; omega

end

/-- The bytes of a word, laid out and read back big-endian (20_memory.md R61). -/
@[simp] theorem opcodeOfBytes_bytes (op : Word) : opcodeOfBytes (firstByte op) (secondByte op) = op := by
  apply BitVec.eq_of_toNat_eq
  have h2 : (secondByte op).toNat = op.toNat % 256 := by
    simp only [secondByte, BitVec.extractLsb'_toNat, Nat.shiftRight_zero, Nat.reducePow]
  have h1 : (firstByte op).toNat = op.toNat / 256 := by
    have := op.isLt
    simp only [firstByte, BitVec.extractLsb'_toNat, Nat.shiftRight_eq_div_pow]; omega
  rw [opcodeOfBytes, BitVec.toNat_append, shiftLeft_or_eq (secondByte op).isLt, h1, h2]
  omega

end Sys2Proof
end

