-- ==== Sys2Proof/Laws/State.lean ====
section
/-! SUPPORT. What each update of the state leaves in each field, and in each view of the state (a register, a byte of
memory, a pixel). Proofs cite these and never unfold a record update. -/

namespace Sys2Proof.Machine

variable (s : State)

/-! ## setReg -/

@[simp] theorem State.setReg_v (r : Reg) (b : Byte) : (s.setReg r b).v = s.v.set r.val b := rfl
@[simp] theorem State.setReg_i (r : Reg) (b : Byte) : (s.setReg r b).i = s.i := rfl
@[simp] theorem State.setReg_pc (r : Reg) (b : Byte) : (s.setReg r b).pc = s.pc := rfl
@[simp] theorem State.setReg_stack (r : Reg) (b : Byte) : (s.setReg r b).stack = s.stack := rfl
@[simp] theorem State.setReg_dt (r : Reg) (b : Byte) : (s.setReg r b).dt = s.dt := rfl
@[simp] theorem State.setReg_st (r : Reg) (b : Byte) : (s.setReg r b).st = s.st := rfl
@[simp] theorem State.setReg_mem (r : Reg) (b : Byte) : (s.setReg r b).mem = s.mem := rfl
@[simp] theorem State.setReg_pix (r : Reg) (b : Byte) : (s.setReg r b).pix = s.pix := rfl
@[simp] theorem State.setReg_halted (r : Reg) (b : Byte) : (s.setReg r b).halted = s.halted := rfl
@[simp] theorem State.setReg_fault (r : Reg) (b : Byte) : (s.setReg r b).fault = s.fault := rfl
@[simp] theorem State.setReg_phase (r : Reg) (b : Byte) : (s.setReg r b).phase = s.phase := rfl
@[simp] theorem State.setReg_key (r : Reg) (b : Byte) : (s.setReg r b).key = s.key := rfl
@[simp] theorem State.setReg_rnd (r : Reg) (b : Byte) : (s.setReg r b).rnd = s.rnd := rfl
@[simp] theorem State.setReg_host (r : Reg) (b : Byte) : (s.setReg r b).host = s.host := rfl
@[simp] theorem State.setReg_freeCount (r : Reg) (b : Byte) : (s.setReg r b).freeCount = s.freeCount := rfl
@[simp] theorem State.setReg_cfg (r : Reg) (b : Byte) : (s.setReg r b).cfg = s.cfg := rfl
@[simp] theorem State.setReg_byteAt (r : Reg) (b : Byte) (a' : Nat) : (s.setReg r b).byteAt a' = s.byteAt a' := rfl
@[simp] theorem State.setReg_pixel (r : Reg) (b : Byte) (c' : Fin 64) (r' : Fin 32) : (s.setReg r b).pixel c' r' = s.pixel c' r' := rfl

/-! ## setFlag -/

@[simp] theorem State.setFlag_v (c : Bool) : (s.setFlag c).v = s.v.set VF.val (flagByte c) := rfl
@[simp] theorem State.setFlag_i (c : Bool) : (s.setFlag c).i = s.i := rfl
@[simp] theorem State.setFlag_pc (c : Bool) : (s.setFlag c).pc = s.pc := rfl
@[simp] theorem State.setFlag_stack (c : Bool) : (s.setFlag c).stack = s.stack := rfl
@[simp] theorem State.setFlag_dt (c : Bool) : (s.setFlag c).dt = s.dt := rfl
@[simp] theorem State.setFlag_st (c : Bool) : (s.setFlag c).st = s.st := rfl
@[simp] theorem State.setFlag_mem (c : Bool) : (s.setFlag c).mem = s.mem := rfl
@[simp] theorem State.setFlag_pix (c : Bool) : (s.setFlag c).pix = s.pix := rfl
@[simp] theorem State.setFlag_halted (c : Bool) : (s.setFlag c).halted = s.halted := rfl
@[simp] theorem State.setFlag_fault (c : Bool) : (s.setFlag c).fault = s.fault := rfl
@[simp] theorem State.setFlag_phase (c : Bool) : (s.setFlag c).phase = s.phase := rfl
@[simp] theorem State.setFlag_key (c : Bool) : (s.setFlag c).key = s.key := rfl
@[simp] theorem State.setFlag_rnd (c : Bool) : (s.setFlag c).rnd = s.rnd := rfl
@[simp] theorem State.setFlag_host (c : Bool) : (s.setFlag c).host = s.host := rfl
@[simp] theorem State.setFlag_freeCount (c : Bool) : (s.setFlag c).freeCount = s.freeCount := rfl
@[simp] theorem State.setFlag_cfg (c : Bool) : (s.setFlag c).cfg = s.cfg := rfl
@[simp] theorem State.setFlag_byteAt (c : Bool) (a' : Nat) : (s.setFlag c).byteAt a' = s.byteAt a' := rfl
@[simp] theorem State.setFlag_pixel (c : Bool) (c' : Fin 64) (r' : Fin 32) : (s.setFlag c).pixel c' r' = s.pixel c' r' := rfl

/-! ## setRegs -/

@[simp] theorem State.setRegs_v (w : Vector Byte 16) : (s.setRegs w).v = w := rfl
@[simp] theorem State.setRegs_i (w : Vector Byte 16) : (s.setRegs w).i = s.i := rfl
@[simp] theorem State.setRegs_pc (w : Vector Byte 16) : (s.setRegs w).pc = s.pc := rfl
@[simp] theorem State.setRegs_stack (w : Vector Byte 16) : (s.setRegs w).stack = s.stack := rfl
@[simp] theorem State.setRegs_dt (w : Vector Byte 16) : (s.setRegs w).dt = s.dt := rfl
@[simp] theorem State.setRegs_st (w : Vector Byte 16) : (s.setRegs w).st = s.st := rfl
@[simp] theorem State.setRegs_mem (w : Vector Byte 16) : (s.setRegs w).mem = s.mem := rfl
@[simp] theorem State.setRegs_pix (w : Vector Byte 16) : (s.setRegs w).pix = s.pix := rfl
@[simp] theorem State.setRegs_halted (w : Vector Byte 16) : (s.setRegs w).halted = s.halted := rfl
@[simp] theorem State.setRegs_fault (w : Vector Byte 16) : (s.setRegs w).fault = s.fault := rfl
@[simp] theorem State.setRegs_phase (w : Vector Byte 16) : (s.setRegs w).phase = s.phase := rfl
@[simp] theorem State.setRegs_key (w : Vector Byte 16) : (s.setRegs w).key = s.key := rfl
@[simp] theorem State.setRegs_rnd (w : Vector Byte 16) : (s.setRegs w).rnd = s.rnd := rfl
@[simp] theorem State.setRegs_host (w : Vector Byte 16) : (s.setRegs w).host = s.host := rfl
@[simp] theorem State.setRegs_freeCount (w : Vector Byte 16) : (s.setRegs w).freeCount = s.freeCount := rfl
@[simp] theorem State.setRegs_cfg (w : Vector Byte 16) : (s.setRegs w).cfg = s.cfg := rfl
@[simp] theorem State.setRegs_byteAt (w : Vector Byte 16) (a' : Nat) : (s.setRegs w).byteAt a' = s.byteAt a' := rfl
@[simp] theorem State.setRegs_pixel (w : Vector Byte 16) (c' : Fin 64) (r' : Fin 32) : (s.setRegs w).pixel c' r' = s.pixel c' r' := rfl

/-! ## setI -/

@[simp] theorem State.setI_v (w : Word) : (s.setI w).v = s.v := rfl
@[simp] theorem State.setI_i (w : Word) : (s.setI w).i = w := rfl
@[simp] theorem State.setI_pc (w : Word) : (s.setI w).pc = s.pc := rfl
@[simp] theorem State.setI_stack (w : Word) : (s.setI w).stack = s.stack := rfl
@[simp] theorem State.setI_dt (w : Word) : (s.setI w).dt = s.dt := rfl
@[simp] theorem State.setI_st (w : Word) : (s.setI w).st = s.st := rfl
@[simp] theorem State.setI_mem (w : Word) : (s.setI w).mem = s.mem := rfl
@[simp] theorem State.setI_pix (w : Word) : (s.setI w).pix = s.pix := rfl
@[simp] theorem State.setI_halted (w : Word) : (s.setI w).halted = s.halted := rfl
@[simp] theorem State.setI_fault (w : Word) : (s.setI w).fault = s.fault := rfl
@[simp] theorem State.setI_phase (w : Word) : (s.setI w).phase = s.phase := rfl
@[simp] theorem State.setI_key (w : Word) : (s.setI w).key = s.key := rfl
@[simp] theorem State.setI_rnd (w : Word) : (s.setI w).rnd = s.rnd := rfl
@[simp] theorem State.setI_host (w : Word) : (s.setI w).host = s.host := rfl
@[simp] theorem State.setI_freeCount (w : Word) : (s.setI w).freeCount = s.freeCount := rfl
@[simp] theorem State.setI_cfg (w : Word) : (s.setI w).cfg = s.cfg := rfl
@[simp] theorem State.setI_reg (w : Word) (r' : Reg) : (s.setI w).reg r' = s.reg r' := rfl
@[simp] theorem State.setI_byteAt (w : Word) (a' : Nat) : (s.setI w).byteAt a' = s.byteAt a' := rfl
@[simp] theorem State.setI_pixel (w : Word) (c' : Fin 64) (r' : Fin 32) : (s.setI w).pixel c' r' = s.pixel c' r' := rfl

/-! ## setDT -/

@[simp] theorem State.setDT_v (b : Byte) : (s.setDT b).v = s.v := rfl
@[simp] theorem State.setDT_i (b : Byte) : (s.setDT b).i = s.i := rfl
@[simp] theorem State.setDT_pc (b : Byte) : (s.setDT b).pc = s.pc := rfl
@[simp] theorem State.setDT_stack (b : Byte) : (s.setDT b).stack = s.stack := rfl
@[simp] theorem State.setDT_dt (b : Byte) : (s.setDT b).dt = b := rfl
@[simp] theorem State.setDT_st (b : Byte) : (s.setDT b).st = s.st := rfl
@[simp] theorem State.setDT_mem (b : Byte) : (s.setDT b).mem = s.mem := rfl
@[simp] theorem State.setDT_pix (b : Byte) : (s.setDT b).pix = s.pix := rfl
@[simp] theorem State.setDT_halted (b : Byte) : (s.setDT b).halted = s.halted := rfl
@[simp] theorem State.setDT_fault (b : Byte) : (s.setDT b).fault = s.fault := rfl
@[simp] theorem State.setDT_phase (b : Byte) : (s.setDT b).phase = s.phase := rfl
@[simp] theorem State.setDT_key (b : Byte) : (s.setDT b).key = s.key := rfl
@[simp] theorem State.setDT_rnd (b : Byte) : (s.setDT b).rnd = s.rnd := rfl
@[simp] theorem State.setDT_host (b : Byte) : (s.setDT b).host = s.host := rfl
@[simp] theorem State.setDT_freeCount (b : Byte) : (s.setDT b).freeCount = s.freeCount := rfl
@[simp] theorem State.setDT_cfg (b : Byte) : (s.setDT b).cfg = s.cfg := rfl
@[simp] theorem State.setDT_reg (b : Byte) (r' : Reg) : (s.setDT b).reg r' = s.reg r' := rfl
@[simp] theorem State.setDT_byteAt (b : Byte) (a' : Nat) : (s.setDT b).byteAt a' = s.byteAt a' := rfl
@[simp] theorem State.setDT_pixel (b : Byte) (c' : Fin 64) (r' : Fin 32) : (s.setDT b).pixel c' r' = s.pixel c' r' := rfl

/-! ## setST -/

@[simp] theorem State.setST_v (b : Byte) : (s.setST b).v = s.v := rfl
@[simp] theorem State.setST_i (b : Byte) : (s.setST b).i = s.i := rfl
@[simp] theorem State.setST_pc (b : Byte) : (s.setST b).pc = s.pc := rfl
@[simp] theorem State.setST_stack (b : Byte) : (s.setST b).stack = s.stack := rfl
@[simp] theorem State.setST_dt (b : Byte) : (s.setST b).dt = s.dt := rfl
@[simp] theorem State.setST_st (b : Byte) : (s.setST b).st = b := rfl
@[simp] theorem State.setST_mem (b : Byte) : (s.setST b).mem = s.mem := rfl
@[simp] theorem State.setST_pix (b : Byte) : (s.setST b).pix = s.pix := rfl
@[simp] theorem State.setST_halted (b : Byte) : (s.setST b).halted = s.halted := rfl
@[simp] theorem State.setST_fault (b : Byte) : (s.setST b).fault = s.fault := rfl
@[simp] theorem State.setST_phase (b : Byte) : (s.setST b).phase = s.phase := rfl
@[simp] theorem State.setST_key (b : Byte) : (s.setST b).key = s.key := rfl
@[simp] theorem State.setST_rnd (b : Byte) : (s.setST b).rnd = s.rnd := rfl
@[simp] theorem State.setST_host (b : Byte) : (s.setST b).host = s.host := rfl
@[simp] theorem State.setST_freeCount (b : Byte) : (s.setST b).freeCount = s.freeCount := rfl
@[simp] theorem State.setST_cfg (b : Byte) : (s.setST b).cfg = s.cfg := rfl
@[simp] theorem State.setST_reg (b : Byte) (r' : Reg) : (s.setST b).reg r' = s.reg r' := rfl
@[simp] theorem State.setST_byteAt (b : Byte) (a' : Nat) : (s.setST b).byteAt a' = s.byteAt a' := rfl
@[simp] theorem State.setST_pixel (b : Byte) (c' : Fin 64) (r' : Fin 32) : (s.setST b).pixel c' r' = s.pixel c' r' := rfl

/-! ## setPix -/

@[simp] theorem State.setPix_v (p : Pix) : (s.setPix p).v = s.v := rfl
@[simp] theorem State.setPix_i (p : Pix) : (s.setPix p).i = s.i := rfl
@[simp] theorem State.setPix_pc (p : Pix) : (s.setPix p).pc = s.pc := rfl
@[simp] theorem State.setPix_stack (p : Pix) : (s.setPix p).stack = s.stack := rfl
@[simp] theorem State.setPix_dt (p : Pix) : (s.setPix p).dt = s.dt := rfl
@[simp] theorem State.setPix_st (p : Pix) : (s.setPix p).st = s.st := rfl
@[simp] theorem State.setPix_mem (p : Pix) : (s.setPix p).mem = s.mem := rfl
@[simp] theorem State.setPix_pix (p : Pix) : (s.setPix p).pix = p := rfl
@[simp] theorem State.setPix_halted (p : Pix) : (s.setPix p).halted = s.halted := rfl
@[simp] theorem State.setPix_fault (p : Pix) : (s.setPix p).fault = s.fault := rfl
@[simp] theorem State.setPix_phase (p : Pix) : (s.setPix p).phase = s.phase := rfl
@[simp] theorem State.setPix_key (p : Pix) : (s.setPix p).key = s.key := rfl
@[simp] theorem State.setPix_rnd (p : Pix) : (s.setPix p).rnd = s.rnd := rfl
@[simp] theorem State.setPix_host (p : Pix) : (s.setPix p).host = s.host := rfl
@[simp] theorem State.setPix_freeCount (p : Pix) : (s.setPix p).freeCount = s.freeCount := rfl
@[simp] theorem State.setPix_cfg (p : Pix) : (s.setPix p).cfg = s.cfg := rfl
@[simp] theorem State.setPix_reg (p : Pix) (r' : Reg) : (s.setPix p).reg r' = s.reg r' := rfl
@[simp] theorem State.setPix_byteAt (p : Pix) (a' : Nat) : (s.setPix p).byteAt a' = s.byteAt a' := rfl

/-! ## setByte -/

@[simp] theorem State.setByte_v (a : Nat) (b : Byte) : (s.setByte a b).v = s.v := rfl
@[simp] theorem State.setByte_i (a : Nat) (b : Byte) : (s.setByte a b).i = s.i := rfl
@[simp] theorem State.setByte_pc (a : Nat) (b : Byte) : (s.setByte a b).pc = s.pc := rfl
@[simp] theorem State.setByte_stack (a : Nat) (b : Byte) : (s.setByte a b).stack = s.stack := rfl
@[simp] theorem State.setByte_dt (a : Nat) (b : Byte) : (s.setByte a b).dt = s.dt := rfl
@[simp] theorem State.setByte_st (a : Nat) (b : Byte) : (s.setByte a b).st = s.st := rfl
@[simp] theorem State.setByte_mem (a : Nat) (b : Byte) : (s.setByte a b).mem = s.mem.write s.cfg a b := rfl
@[simp] theorem State.setByte_pix (a : Nat) (b : Byte) : (s.setByte a b).pix = s.pix := rfl
@[simp] theorem State.setByte_halted (a : Nat) (b : Byte) : (s.setByte a b).halted = s.halted := rfl
@[simp] theorem State.setByte_fault (a : Nat) (b : Byte) : (s.setByte a b).fault = s.fault := rfl
@[simp] theorem State.setByte_phase (a : Nat) (b : Byte) : (s.setByte a b).phase = s.phase := rfl
@[simp] theorem State.setByte_key (a : Nat) (b : Byte) : (s.setByte a b).key = s.key := rfl
@[simp] theorem State.setByte_rnd (a : Nat) (b : Byte) : (s.setByte a b).rnd = s.rnd := rfl
@[simp] theorem State.setByte_host (a : Nat) (b : Byte) : (s.setByte a b).host = s.host := rfl
@[simp] theorem State.setByte_freeCount (a : Nat) (b : Byte) : (s.setByte a b).freeCount = s.freeCount := rfl
@[simp] theorem State.setByte_cfg (a : Nat) (b : Byte) : (s.setByte a b).cfg = s.cfg := rfl
@[simp] theorem State.setByte_reg (a : Nat) (b : Byte) (r' : Reg) : (s.setByte a b).reg r' = s.reg r' := rfl
@[simp] theorem State.setByte_pixel (a : Nat) (b : Byte) (c' : Fin 64) (r' : Fin 32) : (s.setByte a b).pixel c' r' = s.pixel c' r' := rfl

/-! ## push -/

@[simp] theorem State.push_v (w : Word) : (s.push w).v = s.v := rfl
@[simp] theorem State.push_i (w : Word) : (s.push w).i = s.i := rfl
@[simp] theorem State.push_pc (w : Word) : (s.push w).pc = s.pc := rfl
@[simp] theorem State.push_stack (w : Word) : (s.push w).stack = s.stack ++ [w] := rfl
@[simp] theorem State.push_dt (w : Word) : (s.push w).dt = s.dt := rfl
@[simp] theorem State.push_st (w : Word) : (s.push w).st = s.st := rfl
@[simp] theorem State.push_mem (w : Word) : (s.push w).mem = s.mem := rfl
@[simp] theorem State.push_pix (w : Word) : (s.push w).pix = s.pix := rfl
@[simp] theorem State.push_halted (w : Word) : (s.push w).halted = s.halted := rfl
@[simp] theorem State.push_fault (w : Word) : (s.push w).fault = s.fault := rfl
@[simp] theorem State.push_phase (w : Word) : (s.push w).phase = s.phase := rfl
@[simp] theorem State.push_key (w : Word) : (s.push w).key = s.key := rfl
@[simp] theorem State.push_rnd (w : Word) : (s.push w).rnd = s.rnd := rfl
@[simp] theorem State.push_host (w : Word) : (s.push w).host = s.host := rfl
@[simp] theorem State.push_freeCount (w : Word) : (s.push w).freeCount = s.freeCount := rfl
@[simp] theorem State.push_cfg (w : Word) : (s.push w).cfg = s.cfg := rfl
@[simp] theorem State.push_reg (w : Word) (r' : Reg) : (s.push w).reg r' = s.reg r' := rfl
@[simp] theorem State.push_byteAt (w : Word) (a' : Nat) : (s.push w).byteAt a' = s.byteAt a' := rfl
@[simp] theorem State.push_pixel (w : Word) (c' : Fin 64) (r' : Fin 32) : (s.push w).pixel c' r' = s.pixel c' r' := rfl

/-! ## pop -/

@[simp] theorem State.pop_v : (s.pop).v = s.v := rfl
@[simp] theorem State.pop_i : (s.pop).i = s.i := rfl
@[simp] theorem State.pop_pc : (s.pop).pc = s.pc := rfl
@[simp] theorem State.pop_stack : (s.pop).stack = s.stack.dropLast := rfl
@[simp] theorem State.pop_dt : (s.pop).dt = s.dt := rfl
@[simp] theorem State.pop_st : (s.pop).st = s.st := rfl
@[simp] theorem State.pop_mem : (s.pop).mem = s.mem := rfl
@[simp] theorem State.pop_pix : (s.pop).pix = s.pix := rfl
@[simp] theorem State.pop_halted : (s.pop).halted = s.halted := rfl
@[simp] theorem State.pop_fault : (s.pop).fault = s.fault := rfl
@[simp] theorem State.pop_phase : (s.pop).phase = s.phase := rfl
@[simp] theorem State.pop_key : (s.pop).key = s.key := rfl
@[simp] theorem State.pop_rnd : (s.pop).rnd = s.rnd := rfl
@[simp] theorem State.pop_host : (s.pop).host = s.host := rfl
@[simp] theorem State.pop_freeCount : (s.pop).freeCount = s.freeCount := rfl
@[simp] theorem State.pop_cfg : (s.pop).cfg = s.cfg := rfl
@[simp] theorem State.pop_reg (r' : Reg) : (s.pop).reg r' = s.reg r' := rfl
@[simp] theorem State.pop_byteAt (a' : Nat) : (s.pop).byteAt a' = s.byteAt a' := rfl
@[simp] theorem State.pop_pixel (c' : Fin 64) (r' : Fin 32) : (s.pop).pixel c' r' = s.pixel c' r' := rfl

/-! ## nextFree -/

@[simp] theorem State.nextFree_v : (s.nextFree).v = s.v := rfl
@[simp] theorem State.nextFree_i : (s.nextFree).i = s.i := rfl
@[simp] theorem State.nextFree_pc : (s.nextFree).pc = s.pc := rfl
@[simp] theorem State.nextFree_stack : (s.nextFree).stack = s.stack := rfl
@[simp] theorem State.nextFree_dt : (s.nextFree).dt = s.dt := rfl
@[simp] theorem State.nextFree_st : (s.nextFree).st = s.st := rfl
@[simp] theorem State.nextFree_mem : (s.nextFree).mem = s.mem := rfl
@[simp] theorem State.nextFree_pix : (s.nextFree).pix = s.pix := rfl
@[simp] theorem State.nextFree_halted : (s.nextFree).halted = s.halted := rfl
@[simp] theorem State.nextFree_fault : (s.nextFree).fault = s.fault := rfl
@[simp] theorem State.nextFree_phase : (s.nextFree).phase = s.phase := rfl
@[simp] theorem State.nextFree_key : (s.nextFree).key = s.key := rfl
@[simp] theorem State.nextFree_rnd : (s.nextFree).rnd = s.rnd := rfl
@[simp] theorem State.nextFree_host : (s.nextFree).host = s.host := rfl
@[simp] theorem State.nextFree_freeCount : (s.nextFree).freeCount = s.freeCount + 1 := rfl
@[simp] theorem State.nextFree_cfg : (s.nextFree).cfg = s.cfg := rfl
@[simp] theorem State.nextFree_reg (r' : Reg) : (s.nextFree).reg r' = s.reg r' := rfl
@[simp] theorem State.nextFree_byteAt (a' : Nat) : (s.nextFree).byteAt a' = s.byteAt a' := rfl
@[simp] theorem State.nextFree_pixel (c' : Fin 64) (r' : Fin 32) : (s.nextFree).pixel c' r' = s.pixel c' r' := rfl

/-! ## begin -/

@[simp] theorem State.begin_v (k : Keys) (r : Option Byte) : (s.begin k r).v = s.v := rfl
@[simp] theorem State.begin_i (k : Keys) (r : Option Byte) : (s.begin k r).i = s.i := rfl
@[simp] theorem State.begin_pc (k : Keys) (r : Option Byte) : (s.begin k r).pc = s.pc := rfl
@[simp] theorem State.begin_stack (k : Keys) (r : Option Byte) : (s.begin k r).stack = s.stack := rfl
@[simp] theorem State.begin_dt (k : Keys) (r : Option Byte) : (s.begin k r).dt = s.dt := rfl
@[simp] theorem State.begin_st (k : Keys) (r : Option Byte) : (s.begin k r).st = s.st := rfl
@[simp] theorem State.begin_mem (k : Keys) (r : Option Byte) : (s.begin k r).mem = s.mem := rfl
@[simp] theorem State.begin_pix (k : Keys) (r : Option Byte) : (s.begin k r).pix = s.pix := rfl
@[simp] theorem State.begin_halted (k : Keys) (r : Option Byte) : (s.begin k r).halted = s.halted := rfl
@[simp] theorem State.begin_fault (k : Keys) (r : Option Byte) : (s.begin k r).fault = s.fault := rfl
@[simp] theorem State.begin_phase (k : Keys) (r : Option Byte) : (s.begin k r).phase = .running := rfl
@[simp] theorem State.begin_key (k : Keys) (r : Option Byte) : (s.begin k r).key = k := rfl
@[simp] theorem State.begin_rnd (k : Keys) (r : Option Byte) : (s.begin k r).rnd = r := rfl
@[simp] theorem State.begin_host (k : Keys) (r : Option Byte) : (s.begin k r).host = s.host := rfl
@[simp] theorem State.begin_freeCount (k : Keys) (r : Option Byte) : (s.begin k r).freeCount = s.freeCount := rfl
@[simp] theorem State.begin_cfg (k : Keys) (r : Option Byte) : (s.begin k r).cfg = s.cfg := rfl
@[simp] theorem State.begin_reg (k : Keys) (r : Option Byte) (r' : Reg) : (s.begin k r).reg r' = s.reg r' := rfl
@[simp] theorem State.begin_byteAt (k : Keys) (r : Option Byte) (a' : Nat) : (s.begin k r).byteAt a' = s.byteAt a' := rfl
@[simp] theorem State.begin_pixel (k : Keys) (r : Option Byte) (c' : Fin 64) (r' : Fin 32) : (s.begin k r).pixel c' r' = s.pixel c' r' := rfl

/-! ## Registers -/

/-- A register after one is written. -/
theorem State.reg_setReg (x r : Reg) (b : Byte) : (s.setReg x b).reg r = if r = x then b else s.reg r := by
  simp only [State.reg, State.setReg, Vector.getElem_set, Fin.ext_iff, eq_comm]

@[simp] theorem State.reg_setReg_same (x : Reg) (b : Byte) : (s.setReg x b).reg x = b := by
  simp [State.reg_setReg]

@[simp] theorem State.reg_setReg_of_ne (x r : Reg) (b : Byte) (h : r ≠ x) : (s.setReg x b).reg r = s.reg r := by
  simp [State.reg_setReg, h]

/-- A register after the flag is written. -/
theorem State.reg_setFlag (r : Reg) (c : Bool) : (s.setFlag c).reg r = if r = VF then flagByte c else s.reg r :=
  State.reg_setReg s VF r (flagByte c)

@[simp] theorem State.reg_setFlag_same (c : Bool) : (s.setFlag c).reg VF = flagByte c := by
  simp [State.reg_setFlag]

/-- A register of the run of registers that takes bytes in turn. -/
theorem setRegsFrom_getElem (bs : List Byte) : ∀ (v : Vector Byte 16) (k r : Nat) (hr : r < 16),
    (setRegsFrom v k bs)[r] = if h : k ≤ r ∧ r < k + bs.length then bs[r - k]'(by omega) else v[r] := by
  induction bs with
  | nil => intro v k r hr; rw [dif_neg (by rw [List.length_nil]; omega)]; rfl
  | cons b bs ih =>
    intro v k r hr
    rw [setRegsFrom, ih]
    by_cases h1 : k + 1 ≤ r ∧ r < k + 1 + bs.length
    · have h2 : k ≤ r ∧ r < k + (b :: bs).length := by simp; omega
      rw [dif_pos h1, dif_pos h2, List.getElem_cons, dif_neg (by omega)]
      simp only [Nat.sub_add_eq]
    · rw [dif_neg h1, Vector.getElem_setIfInBounds]
      by_cases h3 : k = r
      · subst h3
        have h2 : k ≤ k ∧ k < k + (b :: bs).length := by simp
        rw [if_pos rfl, dif_pos h2]
        simp
      · have h2 : ¬ (k ≤ r ∧ r < k + (b :: bs).length) := by simp; omega
        rw [if_neg h3, dif_neg h2]

end Sys2Proof.Machine
end

