-- ==== Sys2Proof/Laws/Memory.lean ====
section
/-! SUPPORT. Memory: a read after a write, the canonical form, and the access primitives in closed form. -/

namespace Sys2Proof.Machine

/-! ## A read after a write -/

theorem Memory.lookup_insert (m : Memory) (a a' : Nat) (b : Byte) :
    (m.insert a b).lookup a' = if a' = a then some b else m.lookup a' := by
  induction m with
  | nil => simp only [Memory.insert, Memory.lookup, eq_comm (a := a)]
  | cons x m ih =>
    obtain ⟨k, v⟩ := x
    simp only [Memory.insert]
    split
    · simp only [Memory.lookup, eq_comm (a := a)]
    · split
      · rename_i h; subst h
        simp only [Memory.lookup, eq_comm (a := a)]
        split <;> rfl
      · rename_i h1 h2
        simp only [Memory.lookup, ih]
        split
        · rename_i h3; subst h3; rw [if_neg (fun h => h2 h.symm)]
        · rfl

theorem Memory.lookup_erase (m : Memory) (a a' : Nat) :
    (m.erase a).lookup a' = if a' = a then none else m.lookup a' := by
  induction m with
  | nil => simp [Memory.erase, Memory.lookup]
  | cons x m ih =>
    obtain ⟨k, v⟩ := x
    simp only [Memory.erase, Memory.lookup]
    split
    · rename_i h; subst h
      rw [ih]
      split
      · rfl
      · rename_i h; rw [if_neg (fun h' => h h'.symm)]
    · rename_i h
      simp only [Memory.lookup, ih]
      split
      · rename_i h'; subst h'; rw [if_neg h]
      · rfl

/-- Reading a byte after one is written (20_memory.md R63). -/
theorem Memory.read_write (c : Config) (m : Memory) (a a' : Nat) (b : Byte) :
    (m.write c a b).read c a' = if a' = a then b else m.read c a' := by
  unfold Memory.write Memory.read
  split
  · rename_i h
    rw [Memory.lookup_erase]
    split
    · rename_i h'; subst h'; simp [h]
    · rfl
  · rw [Memory.lookup_insert]
    split <;> rfl

theorem State.byteAt_setByte (s : State) (a a' : Nat) (b : Byte) :
    (s.setByte a b).byteAt a' = if a' = a then b else s.byteAt a' :=
  Memory.read_write s.cfg s.mem a a' b

/-- Reading a byte after a run of bytes is written. -/
theorem Memory.read_store (c : Config) (bs : List Byte) : ∀ (m : Memory) (a a' : Nat),
    (m.store c a bs).read c a' = if h : a ≤ a' ∧ a' < a + bs.length then bs[a' - a]'(by omega) else m.read c a' := by
  induction bs with
  | nil => intro m a a'; rw [dif_neg (by rw [List.length_nil]; omega)]; rfl
  | cons b bs ih =>
    intro m a a'
    rw [Memory.store, ih]
    by_cases h1 : a + 1 ≤ a' ∧ a' < a + 1 + bs.length
    · have h2 : a ≤ a' ∧ a' < a + (b :: bs).length := by simp; omega
      rw [dif_pos h1, dif_pos h2, List.getElem_cons, dif_neg (by omega)]
      simp only [Nat.sub_add_eq]
    · rw [dif_neg h1, Memory.read_write]
      by_cases h3 : a' = a
      · subst h3
        have h2 : a' ≤ a' ∧ a' < a' + (b :: bs).length := by simp
        rw [if_pos rfl, dif_pos h2]; simp
      · have h2 : ¬ (a ≤ a' ∧ a' < a + (b :: bs).length) := by simp; omega
        rw [if_neg h3, dif_neg h2]

/-! ## The canonical form -/

theorem Memory.wfFrom_mono {c : Config} {lo lo' : Nat} {m : Memory} (hle : lo' ≤ lo) (h : m.wfFrom c lo = true) :
    m.wfFrom c lo' = true := by
  cases m with
  | nil => rfl
  | cons x m =>
    simp only [Memory.wfFrom, Bool.and_eq_true, decide_eq_true_eq] at h ⊢
    exact ⟨⟨⟨by omega, h.1.1.2⟩, h.1.2⟩, h.2⟩

theorem Memory.wfFrom_insert {c : Config} {a : Nat} {b : Byte} (ha : a ≤ 0xFFF) (hb : b ≠ resetByte c a) :
    ∀ {lo : Nat} {m : Memory}, lo ≤ a → m.wfFrom c lo = true → (m.insert a b).wfFrom c lo = true := by
  intro lo m
  induction m generalizing lo with
  | nil => intro hlo _; simp [Memory.insert, Memory.wfFrom, hlo, ha, hb]
  | cons x m ih =>
    obtain ⟨k, v⟩ := x
    intro hlo h
    simp only [Memory.wfFrom, Bool.and_eq_true, decide_eq_true_eq] at h
    simp only [Memory.insert]
    split
    · simp only [Memory.wfFrom, Bool.and_eq_true, decide_eq_true_eq]
      exact ⟨⟨⟨hlo, ha⟩, by simpa using hb⟩, ⟨⟨by omega, h.1.1.2⟩, h.1.2⟩, h.2⟩
    · split
      · rename_i h2; subst h2
        simp only [Memory.wfFrom, Bool.and_eq_true, decide_eq_true_eq]
        exact ⟨⟨⟨hlo, ha⟩, by simpa using hb⟩, h.2⟩
      · simp only [Memory.wfFrom, Bool.and_eq_true, decide_eq_true_eq]
        exact ⟨h.1, ih (by omega) h.2⟩

theorem Memory.wfFrom_erase {c : Config} {a : Nat} : ∀ {lo : Nat} {m : Memory},
    m.wfFrom c lo = true → (m.erase a).wfFrom c lo = true := by
  intro lo m
  induction m generalizing lo with
  | nil => intro _; rfl
  | cons x m ih =>
    obtain ⟨k, v⟩ := x
    intro h
    simp only [Memory.wfFrom, Bool.and_eq_true, decide_eq_true_eq] at h
    simp only [Memory.erase]
    split
    · exact ih (Memory.wfFrom_mono (by omega) h.2)
    · simp only [Memory.wfFrom, Bool.and_eq_true, decide_eq_true_eq]
      exact ⟨h.1, ih h.2⟩

/-- A write keeps the canonical form. -/
theorem Memory.wf_write {c : Config} {m : Memory} {a : Nat} {b : Byte} (ha : a ≤ 0xFFF) (h : m.wf c = true) :
    (m.write c a b).wf c = true := by
  unfold Memory.write
  split
  · exact Memory.wfFrom_erase h
  · rename_i hb; exact Memory.wfFrom_insert ha hb (Nat.zero_le a) h

/-- A run of writes keeps the canonical form. -/
theorem Memory.wf_store {c : Config} (bs : List Byte) : ∀ {m : Memory} {a : Nat},
    a + bs.length ≤ 0x1000 → m.wf c = true → (m.store c a bs).wf c = true := by
  induction bs with
  | nil => intro m a _ h; exact h
  | cons b bs ih =>
    intro m a hlen h
    simp only [List.length_cons] at hlen
    exact ih (by omega) (Memory.wf_write (by omega) h)

/-- A canonical list holds one cell at most for an address, none above 0xFFF, and none at the reset contents. -/
theorem Memory.lookup_of_wfFrom {c : Config} {a : Nat} {b : Byte} : ∀ {lo : Nat} {m : Memory},
    m.wfFrom c lo = true → m.lookup a = some b → lo ≤ a ∧ a ≤ 0xFFF ∧ b ≠ resetByte c a := by
  intro lo m
  induction m generalizing lo with
  | nil => intro _ h; simp [Memory.lookup] at h
  | cons x m ih =>
    obtain ⟨k, v⟩ := x
    intro h hl
    simp only [Memory.wfFrom, Bool.and_eq_true, decide_eq_true_eq] at h
    simp only [Memory.lookup] at hl
    split at hl
    · rename_i hk; subst hk
      simp only [Option.some.injEq] at hl; subst hl
      exact ⟨h.1.1.1, h.1.1.2, by simpa using h.1.2⟩
    · have := ih h.2 hl
      exact ⟨by omega, this.2⟩

theorem Memory.wf_nil (c : Config) : Memory.wf c [] = true := rfl

/-! ## The access primitives in closed form -/

/-- A run of reads: all of them, or the AddressFault of the first above 0xFFF (20_memory.md R55). -/
theorem readBytes_eq (s : State) (n : Nat) : ∀ a, readBytes s a n =
    if a + n ≤ 0x1000 ∨ n = 0 then .ok ((List.range n).map fun k => s.byteAt (a + k)) else .error (max a 0x1000) := by
  induction n with
  | zero => intro a; simp [readBytes]
  | succ n ih =>
    intro a
    rw [readBytes, memRead, ih]
    by_cases h1 : a > 0xFFF
    · rw [if_pos h1, if_neg (by omega : ¬ (a + (n + 1) ≤ 0x1000 ∨ n + 1 = 0))]
    · rw [if_neg h1]
      by_cases h2 : a + 1 + n ≤ 0x1000 ∨ n = 0
      · rw [if_pos h2, if_pos (by omega : a + (n + 1) ≤ 0x1000 ∨ n + 1 = 0), List.range_succ_eq_map]
        simp only [List.map_cons, List.map_map, Except.ok.injEq, List.cons.injEq, Nat.add_zero, true_and]
        exact List.map_congr_left fun k _ => by simp only [Function.comp_apply]; congr 1; omega
      · rw [if_neg h2, if_neg (by omega : ¬ (a + (n + 1) ≤ 0x1000 ∨ n + 1 = 0))]
        simp only [Except.error.injEq]; omega

/-- A run of writes: all of them, or the AddressFault of the first above 0xFFF (20_memory.md R56). -/
theorem writeBytes_eq (bs : List Byte) : ∀ (s : State) (a : Nat), writeBytes s a bs =
    if a + bs.length ≤ 0x1000 ∨ bs = [] then .ok (s.storeBytes a bs) else .error (max a 0x1000) := by
  induction bs with
  | nil => intro s a; simp [writeBytes, State.storeBytes, Memory.store]
  | cons b bs ih =>
    intro s a
    simp only [writeBytes, memWrite]
    by_cases h1 : a > 0xFFF
    · rw [if_pos h1, if_neg (by simp; omega)]
      simp only
      congr 1; omega
    · rw [if_neg h1]
      simp only [ih]
      by_cases h2 : a + 1 + bs.length ≤ 0x1000 ∨ bs = []
      · have h3 : a + (b :: bs).length ≤ 0x1000 ∨ b :: bs = [] := by
          rcases h2 with h2 | h2
          · left; simp; omega
          · left; subst h2; simp; omega
        rw [if_pos h2, if_pos h3]; rfl
      · have h3 : ¬ (a + (b :: bs).length ≤ 0x1000 ∨ b :: bs = []) := by
          simp at h2 ⊢; omega
        rw [if_neg h2, if_neg h3]
        congr 1
        have : bs.length ≠ 0 := by
          intro h; exact h2 (Or.inr (List.length_eq_zero_iff.mp h))
        omega

/-- A byte after a run of bytes is written. -/
theorem State.byteAt_storeBytes (s : State) (a a' : Nat) (bs : List Byte) :
    (s.storeBytes a bs).byteAt a' =
      if h : a ≤ a' ∧ a' < a + bs.length then bs[a' - a]'(by omega) else s.byteAt a' :=
  Memory.read_store s.cfg bs s.mem a a'

/-- Fetch in closed form (40_control_flow.md R101). -/
theorem fetch_eq (s : State) : fetch s =
    if s.pc.toNat + 1 > 0xFFF then .error (max s.pc.toNat 0x1000)
    else .ok (opcodeOfBytes (s.byteAt s.pc.toNat) (s.byteAt (s.pc.toNat + 1))) := rfl

end Sys2Proof.Machine
end

