-- ==== Sys2Proof/Laws/Ops.lean ====
section
/-! SUPPORT. The shared operations by which a meaning ends: each one's answer, said once. -/

namespace Sys2Proof.Machine

variable (s : State)

/-- Every instruction that is no transfer of control (40_control_flow.md R103). -/
theorem State.advance_eq : s.advance = .next { s with pc := s.pc + 2 } := rfl

/-- The pre-bias and the uniform advance cancel: the net pc is the target (40_control_flow.md R103). -/
theorem State.jumpTo_eq (target : Word) : s.jumpTo target = .next { s with pc := target } := by
  simp [State.jumpTo, State.finish]

/-- A skip (41_skips.md R120). -/
theorem State.skipIf_eq (taken : Bool) :
    s.skipIf taken = .next { s with pc := if taken then s.pc + 4 else s.pc + 2 } := by
  have h : s.pc + 2#16 + 2#16 = s.pc + 4#16 := by rw [BitVec.add_assoc]; rfl
  cases taken <;> simp [State.skipIf, State.finish, h]

/-- The key wait leaves the pc where it is (44_timers_keys.md R193). -/
theorem State.runAgain_eq : s.runAgain = .next s := by
  simp [State.runAgain, State.finish]

/-- The state in which a fault leaves the block (60_exceptions.md R222). -/
def State.faulted (s : State) (code : FaultCode) (opcode info : Word) : State :=
  { s with halted := true, fault := { code := code, pc := s.pc, opcode := opcode, info := info } }

theorem State.raise_eq (code : FaultCode) (opcode info : Word) :
    s.raise code opcode info = .next (s.faulted code opcode info) := rfl

theorem State.raiseAddress_eq (opcode : Word) (a : Nat) :
    s.raiseAddress opcode a = .next (s.faulted .addressFault opcode (BitVec.ofNat 16 a)) := rfl

/-- A store from I on: every byte, or the AddressFault (43_index_memory.md R170). -/
theorem storeAtIndex_eq (opcode : Word) (bytes : List Byte) : storeAtIndex opcode bytes s =
    if s.i.toNat + bytes.length ≤ 0x1000 ∨ bytes = [] then (s.storeBytes s.i.toNat bytes).advance
    else s.raiseAddress opcode (max s.i.toNat 0x1000) := by
  rw [storeAtIndex, State.indexBase, writeBytes_eq]
  split
  · rename_i h; split at h <;> simp_all
  · rename_i h; split at h <;> simp_all

/-- A skip on a key, or KeyIndexFault (41_skips.md R125, R126). -/
theorem skipOnKey_eq (opcode : Word) (k : Byte) (down : Bool) : skipOnKey opcode k down s =
    if k.toNat ≤ 0xF then .next { s with pc := if s.keyDown k.toNat == down then s.pc + 4 else s.pc + 2 }
    else .next (s.faulted .keyIndexFault opcode (zext16 k)) := by
  rw [skipOnKey, State.skipIf_eq]
  by_cases h : k.toNat > 0xF
  · rw [if_pos h, if_neg (by omega : ¬ k.toNat ≤ 0xF)]; rfl
  · rw [if_neg h, if_pos (by omega : k.toNat ≤ 0xF)]

@[simp] theorem State.regsUpTo_length (x : Reg) : (s.regsUpTo x).length = x.val + 1 := by
  simp [State.regsUpTo]

/-- Byte k of a Dump is `V[k]` (43_index_memory.md R175). -/
theorem State.regsUpTo_getElem (x : Reg) (k : Nat) (hk : k < (s.regsUpTo x).length) :
    (s.regsUpTo x)[k] = s.reg ⟨k, by rw [State.regsUpTo_length] at hk; omega⟩ := by
  simp [State.regsUpTo, State.reg]

@[simp] theorem bcdDigits_length (b : Byte) : (bcdDigits b).length = 3 := rfl

@[simp] theorem zext16_toNat (b : Byte) : (zext16 b).toNat = b.toNat := by
  have := b.isLt
  simp only [zext16, BitVec.toNat_setWidth]; omega

@[simp] theorem addressOf_toNat (nnn : BitVec 12) : (addressOf nnn).toNat = nnn.toNat := by
  have := nnn.isLt
  simp only [addressOf, BitVec.toNat_setWidth]; omega

/-- The key wait ends with the least pressed key (44_timers_keys.md R193). -/
theorem State.lowestKey_eq_some (k : Nat) :
    s.lowestKey = some k ↔ k < 16 ∧ s.keyDown k = true ∧ ∀ j < k, s.keyDown j = false := by
  simp only [State.lowestKey, List.find?_range_eq_some]
  simp only [List.mem_range, Bool.not_eq_eq_eq_not, Bool.not_true]
  tauto

/-- The key wait goes on while no key is pressed (44_timers_keys.md R193). -/
theorem State.lowestKey_eq_none : s.lowestKey = none ↔ ∀ k < 16, s.keyDown k = false := by
  simp [State.lowestKey]

end Sys2Proof.Machine
end

