-- ==== Sys2Proof/Laws/Display.lean ====
section
/-! SUPPORT. The draw unit: what one toggled pixel, one sprite row and a whole sprite leave in every pixel and in the
collision flag. -/

namespace Sys2Proof.Machine

/-- A pixel after one is toggled. -/
theorem pixelOf_flipPixel (p : Pix) (c c' : Fin 64) (r r' : Fin 32) :
    pixelOf (flipPixel p c r) c' r' = (pixelOf p c' r' ^^ decide (c' = c ∧ r' = r)) := by
  unfold pixelOf flipPixel
  rw [Vector.getElem_set]
  by_cases hr : r = r'
  · subst hr
    simp only [if_true, BitVec.getLsbD_xor, and_true]
    congr 1
    rw [← BitVec.twoPow_eq, BitVec.getLsbD_twoPow]
    simp only [c.isLt, decide_true, Bool.true_and, Fin.ext_iff, eq_comm]
  · have h1 : ¬ r.val = r'.val := fun h => hr (Fin.ext h)
    have h2 : ¬ (c' = c ∧ r' = r) := fun h => hr h.2.symm
    rw [if_neg h1, decide_eq_false h2, Bool.xor_false]

/-- The pixel that sprite pixel (col, row) of a row of bits lands on (45_display.md R204). -/
def bitHits (ox oy bits : Byte) (row col : Nat) (c : Fin 64) (r : Fin 32) : Bool :=
  bits.getLsbD (7 - col) && decide (c = columnAt ox col ∧ r = rowAt oy row)

theorem pixelOf_drawBit (ox oy bits : Byte) (row col : Nat) (d : Drawing) (c : Fin 64) (r : Fin 32) :
    pixelOf (drawBit ox oy bits row d col).pix c r = (pixelOf d.pix c r ^^ bitHits ox oy bits row col c r) := by
  unfold drawBit bitHits plot
  split
  · rename_i h; rw [pixelOf_flipPixel, h, Bool.true_and]
  · rename_i h; rw [Bool.not_eq_true] at h; rw [h, Bool.false_and, Bool.xor_false]

theorem collide_drawBit (ox oy bits : Byte) (row col : Nat) (d : Drawing) : (drawBit ox oy bits row d col).collide =
    (d.collide || (bits.getLsbD (7 - col) && pixelOf d.pix (columnAt ox col) (rowAt oy row))) := by
  unfold drawBit plot
  split
  · rename_i h; rw [h, Bool.true_and]
  · rename_i h; rw [Bool.not_eq_true] at h; rw [h, Bool.false_and, Bool.or_false]

theorem columnAt_inj (ox : Byte) {i j : Nat} (hi : i < 8) (hj : j < 8) (h : columnAt ox i = columnAt ox j) : i = j := by
  simp only [columnAt, Fin.mk.injEq] at h; omega

theorem rowAt_inj (oy : Byte) {i j : Nat} (hi : i < 32) (hj : j < 32) (h : rowAt oy i = rowAt oy j) : i = j := by
  simp only [rowAt, Fin.mk.injEq] at h; omega

/-- Whether a sprite bit lands on the pixel, for the first `k` columns of a row. -/
theorem foldl_drawBit (ox oy bits : Byte) (row : Nat) (d : Drawing) (k : Nat) (hk : k ≤ 8) :
    (∀ c r, pixelOf ((List.range k).foldl (drawBit ox oy bits row) d).pix c r =
      (pixelOf d.pix c r ^^ decide (∃ col < k, bitHits ox oy bits row col c r = true))) ∧
    ((List.range k).foldl (drawBit ox oy bits row) d).collide =
      (d.collide || decide (∃ col < k, bits.getLsbD (7 - col) = true ∧
        pixelOf d.pix (columnAt ox col) (rowAt oy row) = true)) := by
  induction k with
  | zero => simp
  | succ k ih =>
    obtain ⟨ihp, ihc⟩ := ih (by omega)
    rw [List.range_succ, List.foldl_append, List.foldl_cons, List.foldl_nil]
    constructor
    · intro c r
      rw [pixelOf_drawBit, ihp, Bool.xor_assoc]
      congr 1
      by_cases hb : bitHits ox oy bits row k c r = true
      · have hnone : ¬ ∃ col < k, bitHits ox oy bits row col c r = true := by
          rintro ⟨col, hcol, h⟩
          simp only [bitHits, Bool.and_eq_true, decide_eq_true_eq] at h hb
          have := columnAt_inj ox (by omega) (by omega) (h.2.1.symm.trans hb.2.1)
          omega
        rw [decide_eq_false hnone, hb, decide_eq_true ⟨k, Nat.lt_succ_self k, hb⟩]; rfl
      · rw [Bool.not_eq_true] at hb
        rw [hb, Bool.xor_false, decide_eq_decide]
        constructor
        · rintro ⟨col, hcol, h⟩; exact ⟨col, by omega, h⟩
        · rintro ⟨col, hcol, h⟩
          refine ⟨col, ?_, h⟩
          rcases Nat.lt_succ_iff_lt_or_eq.mp hcol with h' | h'
          · exact h'
          · subst h'; rw [hb] at h; cases h
    · rw [collide_drawBit, ihc, Bool.or_assoc]
      congr 1
      have hpix : pixelOf ((List.range k).foldl (drawBit ox oy bits row) d).pix (columnAt ox k) (rowAt oy row) =
          pixelOf d.pix (columnAt ox k) (rowAt oy row) := by
        rw [ihp, decide_eq_false, Bool.xor_false]
        rintro ⟨col, hcol, h⟩
        simp only [bitHits, Bool.and_eq_true, decide_eq_true_eq] at h
        have := columnAt_inj ox (by omega) (by omega) h.2.1
        omega
      rw [hpix, Bool.eq_iff_iff]
      simp only [Bool.or_eq_true, Bool.and_eq_true, decide_eq_true_eq]
      constructor
      · rintro (⟨col, hcol, h⟩ | h)
        · exact ⟨col, by omega, h⟩
        · exact ⟨k, by omega, h⟩
      · rintro ⟨col, hcol, h⟩
        rcases Nat.lt_succ_iff_lt_or_eq.mp hcol with h' | h'
        · exact Or.inl ⟨col, h', h⟩
        · subst h'; exact Or.inr h

/-- Some set bit of the sprite rows, the first of them at row `row`, lands on pixel (c, r) (45_display.md R204). -/
def RowsHit (ox oy : Byte) (row : Nat) (rows : List Byte) (c : Fin 64) (r : Fin 32) : Prop :=
  ∃ k < rows.length, ∃ col < 8, bitHits ox oy (rows.getD k 0) (row + k) col c r = true

theorem RowsHit_cons (ox oy bits : Byte) (row : Nat) (rows : List Byte) (c : Fin 64) (r : Fin 32) :
    RowsHit ox oy row (bits :: rows) c r ↔
      (∃ col < 8, bitHits ox oy bits row col c r = true) ∨ RowsHit ox oy (row + 1) rows c r := by
  constructor
  · rintro ⟨k, hk, col, hcol, h⟩
    cases k with
    | zero => exact Or.inl ⟨col, hcol, by simpa using h⟩
    | succ k =>
      refine Or.inr ⟨k, by simpa using hk, col, hcol, ?_⟩
      rw [show row + 1 + k = row + (k + 1) by omega]; simpa using h
  · rintro (⟨col, hcol, h⟩ | ⟨k, hk, col, hcol, h⟩)
    · exact ⟨0, by simp, col, hcol, by simpa using h⟩
    · refine ⟨k + 1, by simpa using hk, col, hcol, ?_⟩
      rw [show row + 1 + k = row + (k + 1) by omega] at h; simpa using h

/-- A whole sprite from row `row` on: a pixel is toggled exactly when some set bit lands on it, and the flag is set
exactly when one of those pixels was on (45_display.md R204, R205). -/
theorem drawRows_spec (ox oy : Byte) (rows : List Byte) : ∀ (row : Nat) (d : Drawing), row + rows.length ≤ 32 →
    (∀ c r, (RowsHit ox oy row rows c r → pixelOf (drawRows ox oy row d rows).pix c r = !pixelOf d.pix c r) ∧
      (¬ RowsHit ox oy row rows c r → pixelOf (drawRows ox oy row d rows).pix c r = pixelOf d.pix c r)) ∧
    ((drawRows ox oy row d rows).collide = true ↔
      d.collide = true ∨ ∃ c r, RowsHit ox oy row rows c r ∧ pixelOf d.pix c r = true) := by
  induction rows with
  | nil =>
    intro row d _
    have : ∀ c r, ¬ RowsHit ox oy row [] c r := fun c r ⟨k, hk, _⟩ => absurd hk (Nat.not_lt_zero k)
    simp [drawRows, this]
  | cons bits rows ih =>
    intro row d hlen
    simp only [List.length_cons] at hlen
    obtain ⟨ihp, ihc⟩ := ih (row + 1) (drawRow ox oy bits row d) (by omega)
    obtain ⟨rp, rc⟩ := foldl_drawBit ox oy bits row d 8 (Nat.le_refl 8)
    change ∀ c r, pixelOf (drawRow ox oy bits row d).pix c r = _ at rp
    change (drawRow ox oy bits row d).collide = _ at rc
    -- the first row and the rows after it land on different display rows
    have hdisj : ∀ c r, (∃ col < 8, bitHits ox oy bits row col c r = true) → ¬ RowsHit ox oy (row + 1) rows c r := by
      rintro c r ⟨col0, _, h0⟩ ⟨k, hk, col, _, h⟩
      simp only [bitHits, Bool.and_eq_true, decide_eq_true_eq] at h h0
      have := rowAt_inj oy (by omega) (by omega) (h.2.2.symm.trans h0.2.2)
      omega
    constructor
    · intro c r
      rw [RowsHit_cons, drawRows]
      by_cases h0 : ∃ col < 8, bitHits ox oy bits row col c r = true
      · have h := (ihp c r).2 (hdisj c r h0)
        rw [rp, decide_eq_true h0, Bool.xor_true] at h
        exact ⟨fun _ => h, fun hn => absurd (Or.inl h0) hn⟩
      · have hrow : pixelOf (drawRow ox oy bits row d).pix c r = pixelOf d.pix c r := by
          rw [rp, decide_eq_false h0, Bool.xor_false]
        rw [← hrow]
        exact ⟨fun h => (ihp c r).1 (h.resolve_left h0), fun h => (ihp c r).2 fun h' => h (Or.inr h')⟩
    · rw [drawRows, ihc, rc]
      simp only [Bool.or_eq_true, decide_eq_true_eq]
      constructor
      · rintro ((h | ⟨col, hcol, hbit, hp⟩) | ⟨c, r, h, hp⟩)
        · exact Or.inl h
        · refine Or.inr ⟨_, _, (RowsHit_cons ..).mpr (Or.inl ⟨col, hcol, ?_⟩), hp⟩
          simp [bitHits, hbit]
        · have h0 : ¬ ∃ col < 8, bitHits ox oy bits row col c r = true := fun h0 => hdisj c r h0 h
          rw [rp, decide_eq_false h0, Bool.xor_false] at hp
          exact Or.inr ⟨c, r, (RowsHit_cons ..).mpr (Or.inr h), hp⟩
      · rintro (h | ⟨c, r, h, hp⟩)
        · exact Or.inl (Or.inl h)
        · rcases (RowsHit_cons ..).mp h with ⟨col, hcol, hb⟩ | h
          · simp only [bitHits, Bool.and_eq_true, decide_eq_true_eq] at hb
            obtain ⟨hbit, rfl, rfl⟩ := hb
            exact Or.inl (Or.inr ⟨col, hcol, hbit, hp⟩)
          · have h0 : ¬ ∃ col < 8, bitHits ox oy bits row col c r = true := fun h0 => hdisj c r h0 h
            refine Or.inr ⟨c, r, h, ?_⟩
            rw [rp, decide_eq_false h0, Bool.xor_false]; exact hp

end Sys2Proof.Machine
end

