-- ==== Sys2Proof/Laws/PerInstr.lean ====
section
/-! SUPPORT. Statements made per instruction: the family nibble of an encoded word (30_encoding.md R75). -/

namespace Sys2Proof.Laws.EncodedFamily

/-- The family of an instruction: its row of 30_encoding.md R75. -/
def family : Instr → BitVec 4
  | .clear | .ret | .noOp _ => 0x0#4
  | .jump _ => 0x1#4
  | .call _ => 0x2#4
  | .skipEqRegVal _ _ => 0x3#4
  | .skipNeqRegVal _ _ => 0x4#4
  | .skipEqRegReg _ _ => 0x5#4
  | .setRegVal _ _ => 0x6#4
  | .addRegVal _ _ => 0x7#4
  | .setRegReg _ _ | .orRegReg _ _ | .andRegReg _ _ | .xorRegReg _ _ | .addRegReg _ _ => 0x8#4
  | .subRegReg _ _ | .shiftRight _ | .subReverseRegReg _ _ | .shiftLeft _ => 0x8#4
  | .skipNeqRegReg _ _ => 0x9#4
  | .setI _ => 0xA#4
  | .jumpOffset _ => 0xB#4
  | .setRegRand _ _ => 0xC#4
  | .draw _ _ _ => 0xD#4
  | .skipKeyPressed _ | .skipKeyNotPressed _ => 0xE#4
  | .setRegDelay _ | .setRegKey _ | .setDelayReg _ | .setSoundReg _ | .addIReg _ => 0xF#4
  | .setISpriteReg _ | .bcd _ | .dump _ | .load _ => 0xF#4

/-- The top nibble of the encoded word is the instruction's family. -/
def Statement (i : Instr) : Prop := fieldH (encode i) = family i

theorem clear : Statement .clear := by unfold Statement; decide
theorem ret : Statement .ret := by unfold Statement; decide
theorem noOp (nnn : BitVec 12) : Statement (.noOp nnn) := by simp [Statement, family, encode]
theorem jump (nnn : BitVec 12) : Statement (.jump nnn) := by simp [Statement, family, encode]
theorem call (nnn : BitVec 12) : Statement (.call nnn) := by simp [Statement, family, encode]
theorem skipEqRegVal (x : Reg) (nn : Byte) : Statement (.skipEqRegVal x nn) := by simp [Statement, family, encode]
theorem skipNeqRegVal (x : Reg) (nn : Byte) : Statement (.skipNeqRegVal x nn) := by simp [Statement, family, encode]
theorem skipEqRegReg (x y : Reg) : Statement (.skipEqRegReg x y) := by simp [Statement, family, encode]
theorem setRegVal (x : Reg) (nn : Byte) : Statement (.setRegVal x nn) := by simp [Statement, family, encode]
theorem addRegVal (x : Reg) (nn : Byte) : Statement (.addRegVal x nn) := by simp [Statement, family, encode]
theorem setRegReg (x y : Reg) : Statement (.setRegReg x y) := by simp [Statement, family, encode]
theorem orRegReg (x y : Reg) : Statement (.orRegReg x y) := by simp [Statement, family, encode]
theorem andRegReg (x y : Reg) : Statement (.andRegReg x y) := by simp [Statement, family, encode]
theorem xorRegReg (x y : Reg) : Statement (.xorRegReg x y) := by simp [Statement, family, encode]
theorem addRegReg (x y : Reg) : Statement (.addRegReg x y) := by simp [Statement, family, encode]
theorem subRegReg (x y : Reg) : Statement (.subRegReg x y) := by simp [Statement, family, encode]
theorem shiftRight (x : Reg) : Statement (.shiftRight x) := by simp [Statement, family, encode]
theorem subReverseRegReg (x y : Reg) : Statement (.subReverseRegReg x y) := by simp [Statement, family, encode]
theorem shiftLeft (x : Reg) : Statement (.shiftLeft x) := by simp [Statement, family, encode]
theorem skipNeqRegReg (x y : Reg) : Statement (.skipNeqRegReg x y) := by simp [Statement, family, encode]
theorem setI (nnn : BitVec 12) : Statement (.setI nnn) := by simp [Statement, family, encode]
theorem jumpOffset (nnn : BitVec 12) : Statement (.jumpOffset nnn) := by simp [Statement, family, encode]
theorem setRegRand (x : Reg) (nn : Byte) : Statement (.setRegRand x nn) := by simp [Statement, family, encode]
theorem draw (x y : Reg) (n : Fin 16) : Statement (.draw x y n) := by simp [Statement, family, encode]
theorem skipKeyPressed (x : Reg) : Statement (.skipKeyPressed x) := by simp [Statement, family, encode]
theorem skipKeyNotPressed (x : Reg) : Statement (.skipKeyNotPressed x) := by simp [Statement, family, encode]
theorem setRegDelay (x : Reg) : Statement (.setRegDelay x) := by simp [Statement, family, encode]
theorem setRegKey (x : Reg) : Statement (.setRegKey x) := by simp [Statement, family, encode]
theorem setDelayReg (x : Reg) : Statement (.setDelayReg x) := by simp [Statement, family, encode]
theorem setSoundReg (x : Reg) : Statement (.setSoundReg x) := by simp [Statement, family, encode]
theorem addIReg (x : Reg) : Statement (.addIReg x) := by simp [Statement, family, encode]
theorem setISpriteReg (x : Reg) : Statement (.setISpriteReg x) := by simp [Statement, family, encode]
theorem bcd (x : Reg) : Statement (.bcd x) := by simp [Statement, family, encode]
theorem dump (x : Reg) : Statement (.dump x) := by simp [Statement, family, encode]
theorem load (x : Reg) : Statement (.load x) := by simp [Statement, family, encode]

end Sys2Proof.Laws.EncodedFamily
end

