-- ==== Sys2Proof/Tests/Slice0.lean ====
section
/-! SUPPORT. Tests. Every expected value is worked out from the spec: its encoding tables, its rules' examples or its
vectors (95_test_vectors.md), named beside it. Then the witnesses: states and operands that meet the statements'
hypotheses. -/

namespace Sys2Proof.Tests

open Sys2Proof Sys2Proof.Machine

/-! ## Helpers -/

/-- The next state of an answer, if it is one. -/
def next? (o : Host.Outcome State Fault Refusal) : Option State :=
  match o with
  | .next t => some t
  | .fault _ => none
  | .refused _ => none

/-- One step on the word `w` placed at the pc of `s`. -/
def run (w : Nat) (s : State) : Option State := next? (step (s.withFetchWord 16 w))

/-- One STEP with the inputs the host names. -/
def runWith (key : Keys) (rnd : Byte) (w : Nat) (s : State) : Option State :=
  next? (step { s.withFetchWord 16 w with host := [.step key rnd] })

/-- Reset with V0 and V1 set: the start state of most vectors. -/
def two (a b : Byte) : State := (State.reset.setReg 0 a).setReg 1 b

/-- The pixels on in row `r`, as the row's bits; bit c is column c. -/
def rowOf (s : State) (r : Fin 32) : BitVec 64 := s.pix[r.val]

/-! ## WellFormed: an ill-formed term is refused -/

theorem test_wellFormed_refuses_clears_word : (Instr.noOp 0x0E0#12).wellFormed = false := by decide
theorem test_wellFormed_refuses_rets_word : (Instr.noOp 0x0EE#12).wellFormed = false := by decide
theorem test_wellFormed_accepts_the_others : (Instr.noOp 0x0DF#12).wellFormed = true ∧
    (Instr.noOp 0x000#12).wellFormed = true ∧ (Instr.jump 0x0E0#12).wellFormed = true := by decide

/-! ## Decode: a word for every constructor, its bits written out from 30_encoding.md R72 and R75 to R79 -/

theorem test_decode_control_words :
    decode 0b0000000011100000 = .ok .clear ∧
    decode 0b0000000011101110 = .ok .ret ∧
    decode 0b0000000100100011 = .ok (.noOp 0x123) ∧
    decode 0b0001101010111100 = .ok (.jump 0xABC) ∧
    decode 0b0010001000010000 = .ok (.call 0x210) ∧
    decode 0b1011001100000001 = .ok (.jumpOffset 0x301) := by decide

theorem test_decode_skip_words :
    decode 0b0011001100010000 = .ok (.skipEqRegVal 3 0x10) ∧
    decode 0b0100001100010001 = .ok (.skipNeqRegVal 3 0x11) ∧
    decode 0b0101000000010000 = .ok (.skipEqRegReg 0 1) ∧
    decode 0b0101001011001111 = .ok (.skipEqRegReg 2 0xC) ∧
    decode 0b1001000000010000 = .ok (.skipNeqRegReg 0 1) ∧
    decode 0b1001110100111001 = .ok (.skipNeqRegReg 0xD 3) ∧
    decode 0b1110010110011110 = .ok (.skipKeyPressed 5) ∧
    decode 0b1110101010100001 = .ok (.skipKeyNotPressed 0xA) := by decide

theorem test_decode_alu_words :
    decode 0b0110000000000101 = .ok (.setRegVal 0 5) ∧
    decode 0b0111001000000001 = .ok (.addRegVal 2 1) ∧
    decode 0b1000000100100000 = .ok (.setRegReg 1 2) ∧
    decode 0b1000000100100001 = .ok (.orRegReg 1 2) ∧
    decode 0b1000000100100010 = .ok (.andRegReg 1 2) ∧
    decode 0b1000000100100011 = .ok (.xorRegReg 1 2) ∧
    decode 0b1000000100100100 = .ok (.addRegReg 1 2) ∧
    decode 0b1000000100100101 = .ok (.subRegReg 1 2) ∧
    decode 0b1000000111110110 = .ok (.shiftRight 1) ∧
    decode 0b1000000100100111 = .ok (.subReverseRegReg 1 2) ∧
    decode 0b1000000111111110 = .ok (.shiftLeft 1) ∧
    decode 0b1100001100001111 = .ok (.setRegRand 3 0x0F) := by decide

theorem test_decode_memory_words :
    decode 0b1010001000000010 = .ok (.setI 0x202) ∧
    decode 0b1111001000011110 = .ok (.addIReg 2) ∧
    decode 0b1111000000101001 = .ok (.setISpriteReg 0) ∧
    decode 0b1111000100110011 = .ok (.bcd 1) ∧
    decode 0b1111001001010101 = .ok (.dump 2) ∧
    decode 0b1111001101100101 = .ok (.load 3) := by decide

theorem test_decode_timer_and_display_words :
    decode 0b1111010000000111 = .ok (.setRegDelay 4) ∧
    decode 0b1111010100001010 = .ok (.setRegKey 5) ∧
    decode 0b1111011000010101 = .ok (.setDelayReg 6) ∧
    decode 0b1111011100011000 = .ok (.setSoundReg 7) ∧
    decode 0b1101001000110101 = .ok (.draw 2 3 5) := by decide

/-- R77 to R79, R81: an illegal word of each family that holds some. -/
theorem test_decode_illegal_words :
    decode 0b1000000000001000 = .error (.illegal 0x8008) ∧
    decode 0b1000001100101111 = .error (.illegal 0x832F) ∧
    decode 0b1110000010011101 = .error (.illegal 0xE09D) ∧
    decode 0b1111001001010110 = .error (.illegal 0xF256) := by decide

/-- R61: the first byte is the high one. -/
theorem test_decodeBytes_is_big_endian : decodeBytes [0x60, 0x05, 0xA2] = .ok (.setRegVal 0 5, [0xA2]) := by decide

/-! ## Reset (10_state.md R37, R38): pc, the last glyph's first and last byte, and the byte above the font -/

theorem test_reset_pc_and_font : State.reset.pc = 0x200 ∧ State.reset.byteAt 0x04B = 0xF0 ∧
    State.reset.byteAt 0x04F = 0x80 ∧ State.reset.byteAt 0x050 = 0x00 := by decide

/-! ## The step cycle -/

/-- S1. -/
theorem test_first_scenario : (run 0x6005 State.reset).map (fun t => (t.reg 0, t.pc, t.phase)) =
    some (0x05, 0x202, .running) := by decide

/-- P9: an illegal word leaves the record (1, 200, 8008, 8008) and the pc. -/
theorem test_illegal_word_halts : (run 0x8008 State.reset).map (fun t => (t.halted, t.fault, t.pc)) =
    some (true, ⟨.decodeError, 0x200, 0x8008, 0x8008⟩, 0x200) := by decide

/-- R101, R222: a fetch at 0xFFF records opcode 0 and address 0x1000. -/
theorem test_fetch_fault : (next? (step { State.reset with pc := 0xFFF })).map (fun t => (t.halted, t.fault)) =
    some (true, ⟨.addressFault, 0xFFF, 0x0000, 0x1000⟩) := by decide

/-! ## The host's operations -/

/-- TK-9 and TK-11. -/
theorem test_tick : (next? (perform .tick { State.reset with dt := 2, st := 0 })).map (fun t => (t.dt, t.st)) =
    some (1, 0) := by decide

/-- P2: the image lies at 0x200 and up. -/
theorem test_loadRom : (next? (perform (.loadRom [0x60, 0xFE]) State.reset)).map
    (fun t => (t.byteAt 0x200, t.byteAt 0x201, t.phase)) = some (0x60, 0xFE, .loaded) := by decide

/-- R251: a second image is refused. -/
theorem test_loadRom_refused :
    perform (.loadRom []) { State.reset with phase := .loaded } = .refused .loadRomOutsideInitDone := by rfl

/-- R250: INIT leaves PIX and clears `halted`. -/
theorem test_init : (next? (perform .init { State.reset with halted := true, dt := 9, pix := State.reset.pix.set 3 5 })).map
    (fun t => (t.halted, t.dt, rowOf t 3)) = some (false, 0, 5) := by decide

/-! ## Control flow -/

/-- R105's example. -/
theorem test_noOp : (run 0x0123 State.reset).map (·.pc) = some 0x202 := by decide
/-- R106: a target below 2. -/
theorem test_jump : (run 0x1001 State.reset).map (·.pc) = some 0x001 := by decide
/-- R107's example. -/
theorem test_call : (run 0x2210 { State.reset with pc := 0x204 }).map (fun t => (t.pc, t.stack)) =
    some (0x210, [0x206]) := by decide
/-- R107: a full stack. -/
theorem test_call_full : (run 0x2210 { State.reset with
    stack := [0x206], cfg := { defaultConfig with stackLimit := some 1 } }).map (fun t => (t.fault, t.stack, t.pc)) =
    some (⟨.stackOverflow, 0x200, 0x2210, 0⟩, [0x206], 0x200) := by decide
/-- R108, R110: the newest entry is taken. -/
theorem test_ret : (run 0x00EE { State.reset with stack := [0x206, 0x30A] }).map (fun t => (t.pc, t.stack)) =
    some (0x30A, [0x206]) := by decide
/-- P5. -/
theorem test_ret_empty : (run 0x00EE State.reset).map (fun t => (t.halted, t.fault)) =
    some (true, ⟨.stackUnderflow, 0x200, 0x00EE, 0⟩) := by decide
/-- R109: the largest sum, not masked. -/
theorem test_jumpOffset : (run 0xBFFF (two 0xFF 0)).map (·.pc) = some 0x10FE := by decide

/-! ## Skips -/

/-- R121's example. -/
theorem test_skipEqRegVal : (run 0x3310 (State.reset.setReg 3 0x10)).map (·.pc) = some 0x204 := by decide
/-- R122's example. -/
theorem test_skipNeqRegVal : (run 0x4310 (State.reset.setReg 3 0x10)).map (·.pc) = some 0x202 := by decide
/-- R123, R80: op[3:0] is ignored. -/
theorem test_skipEqRegReg : (run 0x5017 (two 5 5)).map (·.pc) = some 0x204 := by decide
/-- SK-10. -/
theorem test_skipNeqRegReg : (run 0x9019 (two 4 5)).map (·.pc) = some 0x204 := by decide
/-- SK-12: another key is pressed. -/
theorem test_skipKeyPressed : (runWith 0x0040 0 0xE59E (State.reset.setReg 5 7)).map (·.pc) = some 0x202 := by decide
/-- SK-15. -/
theorem test_skipKeyPressed_fault : (runWith 0xFFFF 0 0xE59E (State.reset.setReg 5 0x10)).map (fun t => (t.fault, t.pc)) =
    some (⟨.keyIndexFault, 0x200, 0xE59E, 0x10⟩, 0x200) := by decide
/-- SK-17. -/
theorem test_skipKeyNotPressed : (runWith 0x8000 0 0xEFA1 (State.reset.setReg 0xF 0xF)).map (·.pc) = some 0x202 := by decide
/-- SK-16. -/
theorem test_skipKeyNotPressed_fault : (run 0xE5A1 (State.reset.setReg 5 0xFF)).map (·.fault) =
    some ⟨.keyIndexFault, 0x200, 0xE5A1, 0xFF⟩ := by decide

/-! ## Arithmetic and logic -/

/-- ALU-2. -/
theorem test_setRegVal : (run 0x6FAB State.reset).map (·.reg 0xF) = some 0xAB := by decide
/-- ALU-3: no flag. -/
theorem test_addRegVal : (run 0x7201 ((State.reset.setReg 2 0xFF).setReg 0xF 0x55)).map (fun t => (t.reg 2, t.reg 0xF)) =
    some (0x00, 0x55) := by decide
/-- ALU-5. -/
theorem test_setRegReg : (run 0x8010 (two 0 0x2A)).map (fun t => (t.reg 0, t.reg 1)) = some (0x2A, 0x2A) := by decide
/-- ALU-6: no flag. -/
theorem test_orRegReg : (run 0x8011 ((two 0xF0 0x0F).setReg 0xF 7)).map (fun t => (t.reg 0, t.reg 0xF)) =
    some (0xFF, 7) := by decide
/-- ALU-7. -/
theorem test_andRegReg : (run 0x8012 (two 0xF0 0x3C)).map (·.reg 0) = some 0x30 := by decide
/-- ALU-8. -/
theorem test_xorRegReg : (run 0x8013 (two 0xF0 0x3C)).map (·.reg 0) = some 0xCC := by decide
/-- ALU-14. -/
theorem test_addRegReg : (run 0x8014 (two 0xFF 0xFF)).map (fun t => (t.reg 0, t.reg 0xF)) = some (0xFE, 1) := by decide
/-- ALU-15: with x = 0xF the flag stays. -/
theorem test_addRegReg_flag : (run 0x8F14 ((two 0 2).setReg 0xF 0xFF)).map (·.reg 0xF) = some 1 := by decide
/-- ALU-18. -/
theorem test_subRegReg : (run 0x8015 (two 3 5)).map (fun t => (t.reg 0, t.reg 0xF)) = some (0xFE, 0) := by decide
/-- ALU-22. -/
theorem test_subRegReg_flag : (run 0x8F15 ((two 0 5).setReg 0xF 3)).map (·.reg 0xF) = some 0 := by decide
/-- ALU-23: y is ignored. -/
theorem test_shiftRight : (run 0x8016 (two 0xFF 0xAA)).map (fun t => (t.reg 0, t.reg 0xF)) = some (0x7F, 1) := by decide
/-- ALU-27. -/
theorem test_shiftRight_flag : (run 0x8F06 (State.reset.setReg 0xF 3)).map (·.reg 0xF) = some 0 := by decide
/-- ALU-29. -/
theorem test_subReverseRegReg : (run 0x8107 (two 0x7F 0x04)).map (fun t => (t.reg 1, t.reg 0xF)) = some (0x7B, 1) := by decide
/-- ALU-30. -/
theorem test_subReverseRegReg_borrow : (run 0x8107 (two 0x04 0x7F)).map (fun t => (t.reg 1, t.reg 0xF)) =
    some (0x85, 0) := by decide
/-- ALU-32. -/
theorem test_shiftLeft : (run 0x810E (two 0 0x82)).map (fun t => (t.reg 1, t.reg 0xF)) = some (0x04, 1) := by decide
/-- ALU-36. -/
theorem test_shiftLeft_flag : (run 0x8F0E (State.reset.setReg 0xF 0x81)).map (·.reg 0xF) = some 2 := by decide
/-- ALU-38. -/
theorem test_setRegRand : (runWith 0 0xAB 0xC30F State.reset).map (·.reg 3) = some 0x0B := by decide

/-! ## Index register and memory -/

/-- MEM-2. -/
theorem test_setI : (run 0xAFFF State.reset).map (·.i) = some 0xFFF := by decide
/-- MEM-5: no mask. -/
theorem test_addIReg : (run 0xF01E ({ State.reset with i := 0xFFF }.setReg 0 1)).map (fun t => (t.i, t.halted)) =
    some (0x1000, false) := by decide
/-- MEM-11: the digit is not masked. -/
theorem test_setISpriteReg : (run 0xF029 (two 0xFF 0)).map (·.i) = some 0x4FB := by decide
/-- MEM-12. -/
theorem test_bcd : (run 0xF033 { two 0xFE 0 with i := 0x300 }).map
    (fun t => (t.byteAt 0x300, t.byteAt 0x301, t.byteAt 0x302, t.i)) = some (2, 5, 4, 0x300) := by decide
/-- MEM-20: no byte is written. -/
theorem test_bcd_fault : (run 0xF033 { two 0x7B 0 with i := 0xFFE }).map (fun t => (t.fault, t.byteAt 0xFFE)) =
    some (⟨.addressFault, 0x200, 0xF033, 0x1000⟩, 0) := by decide
/-- MEM-25: the font can be written. -/
theorem test_dump : (run 0xF155 (two 0xAA 0xBB)).map (fun t => (t.byteAt 0, t.byteAt 1, t.byteAt 2)) =
    some (0xAA, 0xBB, 0x90) := by decide
/-- MEM-24. -/
theorem test_dump_fault : (run 0xFF55 { two 0x11 0 with i := 0xFF1 }).map (fun t => (t.fault, t.byteAt 0xFF1)) =
    some (⟨.addressFault, 0x200, 0xFF55, 0x1000⟩, 0) := by decide
/-- MEM-27: glyph 0, and V5 stays. -/
theorem test_load : (run 0xF465 (State.reset.setReg 5 0x55)).map (fun t => (t.reg 0, t.reg 3, t.reg 4, t.reg 5)) =
    some (0xF0, 0x90, 0xF0, 0x55) := by decide
/-- MEM-29. -/
theorem test_load_fault : (run 0xF065 { two 0x11 0 with i := 0x1000 }).map (fun t => (t.fault, t.reg 0)) =
    some (⟨.addressFault, 0x200, 0xF065, 0x1000⟩, 0x11) := by decide

/-! ## Timers and the key wait -/

/-- TK-1. -/
theorem test_setRegDelay : (run 0xF307 { State.reset with dt := 0x2A, st := 1 }).map (·.reg 3) = some 0x2A := by decide
/-- TK-2. -/
theorem test_setDelayReg : (run 0xF315 (State.reset.setReg 3 0x3C)).map (fun t => (t.dt, t.st)) = some (0x3C, 0) := by decide
/-- TK-3. -/
theorem test_setSoundReg : (run 0xF318 (State.reset.setReg 3 5)).map (fun t => (t.dt, t.st)) = some (0, 5) := by decide
/-- TK-6: the lowest key wins. -/
theorem test_setRegKey : (runWith 0x0088 0 0xF30A { State.reset with pc := 0x300 }).map (fun t => (t.reg 3, t.pc)) =
    some (3, 0x302) := by decide
/-- TK-5. -/
theorem test_setRegKey_waits : (run 0xF30A { State.reset with pc := 0x300 }).map (·.pc) = some 0x300 := by decide

/-! ## Display -/

/-- DRW-13. -/
theorem test_clear : (run 0x00E0 { State.reset.setReg 0xF 1 with pix := State.reset.pix.set 5 0x20 }).map
    (fun t => (rowOf t 5, t.reg 0xF)) = some (0, 1) := by decide
/-- DRW-1: the column wraps. -/
theorem test_draw_wraps : (run 0xD011 { (two 60 0).setByte 0x300 0xFF with i := 0x300 }).map
    (fun t => (rowOf t 0, t.reg 0xF)) = some (0xF00000000000000F, 0) := by decide
/-- DRW-5: bit 7 is the left pixel, and a pixel that goes off is a collision. -/
theorem test_draw_collides : (run 0xD011 { (two 0 0).setByte 0x300 0xC0 with
    i := 0x300, pix := State.reset.pix.set 0 0x22 }).map (fun t => (rowOf t 0, t.reg 0xF)) = some (0x21, 1) := by decide

/-! ## Witnesses: the hypotheses of each statement can be met, each clause's at an edge of its range -/

theorem witness_DecodeOfEncodeIsTheInstruction : (Instr.noOp 0xFFF).wellFormed = true := by decide

theorem witness_LegalWordKeepsEveryBitNotIgnored : decode 0x8FF6 = .ok (.shiftRight 0xF) := by decide

/-- Both sides of each of the three patterns. -/
theorem witness_IllegalEncodingsAreExactlyThreePatterns :
    decode 0x800F = .error (.illegal 0x800F) ∧ decode 0x800E = .ok (.shiftLeft 0) ∧
    decode 0xE0A0 = .error (.illegal 0xE0A0) ∧ decode 0xE0A1 = .ok (.skipKeyNotPressed 0) ∧
    decode 0xF064 = .error (.illegal 0xF064) ∧ decode 0xF065 = .ok (.load 0) := by decide

theorem witness_FamilyZeroHasNoDecodeError : (0x0FFF#16).toNat ≤ 0x0FFF ∧ 0x0FFF#16 ≠ 0x00E0#16 ∧ 0x0FFF#16 ≠ 0x00EE#16 := by
  decide

theorem witness_DecoderFollowsTheOpcodeTable :
    decode 0x0000 = .ok (.noOp 0) ∧ decode 0xFFFF = .error (.illegal 0xFFFF) := by decide

/-- The last pc at which a fetch succeeds, without and with an operation of the host. -/
theorem witness_StepRunsTheDecodedInstruction :
    let s := { State.reset with pc := 0xFFE }
    s.halted = false ∧ s.pc.toNat + 1 ≤ 0xFFF ∧ decode s.wordAtPc = .ok (.noOp 0) ∧ s.host = [] ∧
    { s with host := [HostOp.step 0xFFFF 0xFF] }.host = [HostOp.step 0xFFFF 0xFF] := by decide

theorem witness_FetchAboveMemoryFaults :
    let s := { State.reset with pc := 0xFFF }
    s.halted = false ∧ s.host = [] ∧ s.pc.toNat + 1 > 0xFFF := by decide

theorem witness_IllegalWordFaults :
    let s := State.reset.withFetchWord 16 0x8008
    s.halted = false ∧ s.host = [] ∧ s.pc.toNat + 1 ≤ 0xFFF ∧ decode s.wordAtPc = .error (.illegal 0x8008) := by decide

/-- TK-12: TICK acts while halted. -/
theorem witness_HaltedStepChangesNothing :
    let s := { State.reset with halted := true, dt := 5 }
    s.halted = true ∧ HostOp.tick ≠ .init ∧ perform .tick s = .next { s with dt := 4 } := by
  refine ⟨rfl, by decide, ?_⟩
  rfl

/-- A state for each clause. -/
theorem witness_StepFaultsExactlyAsListed :
    let s := State.reset.withFetchWord 16 0x00EE
    s.halted = false ∧ s.host = [] ∧ stepFault s = some ⟨.stackUnderflow, 0x200, 0x00EE, 0⟩ ∧
    stepFault (State.reset.withFetchWord 16 0xE09E) = none := by decide

theorem witness_HostOperationsComeInOrder : State.reset.host = [] ∧
    { State.reset with host := [HostOp.tick, .init] }.host = .tick :: [.init] := ⟨rfl, rfl⟩

/-- A halted block that INIT starts again. -/
theorem witness_InitSetsEveryResetValue :
    ∃ t, { State.reset with halted := true }.halted = true ∧
      perform .init { State.reset with halted := true } = .next t ∧ t.halted = false := ⟨_, rfl, rfl, rfl⟩

/-- The longest image, and one byte more; and another phase. -/
theorem witness_LoadRomCopiesTheImageOrIsRefused : State.reset.phase = .initDone ∧
    (List.replicate 3584 (0 : Byte)).length ≤ 3584 ∧ (List.replicate 3585 (0 : Byte)).length > 3584 ∧
    { State.reset with phase := .loaded }.phase ≠ .initDone := by
  simp only [List.length_replicate]; decide

/-- A machine whose limit is one entry, before and after a Call. -/
theorem witness_CallPushesTheReturnAddress :
    let s := State.start { defaultConfig with stackLimit := some 1 }
    s.cfg.stackLimit ≠ some s.stack.length ∧ (s.push 0x202).cfg.stackLimit = some (s.push 0x202).stack.length := by decide

theorem witness_RetReturnsToTheLastEntry : { State.reset with stack := [0x206] }.stack = [] ++ [0x206#16] ∧
    State.reset.stack = [] := ⟨rfl, rfl⟩

theorem witness_RetAfterCallLandsAfterTheCall : State.reset.cfg.stackLimit ≠ some State.reset.stack.length := by decide

theorem witness_KeySkipsTestTheKeyOrFault :
    ((two 0xF 0x10).reg 0).toNat ≤ 0xF ∧ ((two 0xF 0x10).reg 1).toNat > 0xF := by decide

/-- The clauses for x = VF and for another x, of the five arithmetic statements. -/
theorem witness_FlagWriters : (0xE : Reg) ≠ VF ∧ (0xF : Reg) = VF := by decide

theorem witness_SetRegRandMasksTheRandomByte : State.reset.rnd = none ∧ { State.reset with rnd := some 0xFF }.rnd = some 0xFF :=
  ⟨rfl, rfl⟩

theorem witness_SetISpriteRegPointsAtTheGlyph :
    ((two 0xF 0).reg 0).toNat = (15 : Fin 16).val ∧ ∀ a < 80, (two 0xF 0).mem.lookup a = none :=
  ⟨by decide, fun _ _ => rfl⟩

/-- The last place that fits and the first that does not, for the three digits and for sixteen registers. -/
theorem witness_IndexAccesses :
    { State.reset with i := 0xFFD }.indexBase + 2 ≤ 0xFFF ∧ { State.reset with i := 0xFFE }.indexBase + 2 > 0xFFF ∧
    { State.reset with i := 0xFF0 }.indexBase + (0xF : Reg).val ≤ 0xFFF ∧
    { State.reset with i := 0xFF1 }.indexBase + (0xF : Reg).val > 0xFFF := by decide

theorem witness_DumpIsSeenByTheNextFetch :
    let s := { State.reset with i := 0x202 }
    1 ≤ (1 : Reg).val ∧ s.indexBase + (1 : Reg).val ≤ 0xFFF ∧ s.i = s.pc + 2 := by decide

/-- Key 15 alone; and no key. -/
theorem witness_KeyWaitTakesTheLeastPressedKey : (0x8000#16).getLsbD 15 = true ∧
    (∀ j < 15, (0x8000#16).getLsbD j = false) ∧ ∀ k < 16, (0x0000#16).getLsbD k = false := by decide

/-- A sprite of no rows anywhere, the last place of 15 rows, and the first that faults. -/
theorem witness_DrawTogglesTheSpritesPixels : ((0 : Fin 16).val = 0) ∧
    { State.reset with i := 0xFF1 }.indexBase + (15 : Fin 16).val ≤ 0x1000 ∧ (15 : Fin 16).val ≠ 0 ∧
    { State.reset with i := 0xFF2 }.indexBase + (15 : Fin 16).val > 0x1000 := by decide

/-- Glyph 0 at (0, 0): pixel (3, 4) is hit and pixel (4, 4) is not. -/
theorem witness_spriteHits : spriteHits State.reset 0 1 5 3 4 ∧ ¬ spriteHits State.reset 0 1 5 4 4 := by
  refine ⟨⟨4, by decide, 3, by decide, by decide⟩, ?_⟩
  rintro ⟨row, hrow, col, hcol, h⟩
  revert row col
  decide

theorem witness_DrawTwiceRestoresTheDisplay :
    ∃ t, exec (.draw 0 1 5) State.reset = .next t ∧ State.reset.indexBase + (5 : Fin 16).val ≤ 0x1000 ∧
      t.reg 0 = State.reset.reg 0 ∧ t.reg 1 = State.reset.reg 1 := ⟨_, rfl, by decide, by decide, by decide⟩

/-- The last byte of the last pixel. -/
theorem witness_HostSeesFourBytesPerPixel :
    (8191 : Fin 8192).val = 4 * (64 * (31 : Fin 32).val + (63 : Fin 64).val) + (3 : Fin 4).val := by decide

/-- An instruction that raises no fault, for the rules of the whole machine. -/
theorem witness_ExecutedInstruction : ∃ t, exec (.jump 0x300) State.reset = .next t ∧ State.reset.halted = false ∧
    t.halted = false ∧ Element.i ∉ touches (.jump 0x300) ∧ (∀ x, Instr.jump 0x300 ≠ .skipKeyPressed x) ∧
    (∀ x, Instr.jump 0x300 ≠ .skipKeyNotPressed x) ∧ (∀ x, Instr.jump 0x300 ≠ .setRegKey x) ∧
    ∀ x nn, Instr.jump 0x300 ≠ .setRegRand x nn := by
  refine ⟨_, rfl, rfl, rfl, by decide, ?_, ?_, ?_, ?_⟩ <;> intros <;> exact Instr.noConfusion

/-- For each clause an instruction whose `touches` leaves its element out. -/
theorem witness_UntouchedElementsHaveNoInfluence : Element.i ∉ touches .clear ∧ Element.stack ∉ touches .clear ∧
    Element.dt ∉ touches .clear ∧ Element.st ∉ touches .clear ∧ Element.mem ∉ touches .clear ∧ Element.pix ∉ touches .ret := by
  decide

/-- A step that reaches the bound. -/
theorem witness_PcStaysBelow10FF :
    let s := (two 0xFF 0).withFetchWord 16 0xBFFF
    s.halted = false ∧ s.host = [] ∧ (∀ a ∈ s.stack, a.toNat ≤ 0x1000) ∧
      (next? (step s)).map (fun t => (t.halted, t.pc.toNat)) = some (false, 0x10FE) := by
  refine ⟨rfl, rfl, ?_, by decide⟩
  intro a h
  cases h

theorem witness_StartMeetsTheInvariant : defaultConfig.wf = true ∧ { defaultConfig with stackLimit := some 1 }.wf = true := by
  decide

theorem witness_StepKeepsTheInvariant : State.reset.Inv ∧ (next? (step State.reset)).isSome = true :=
  ⟨⟨by decide, by decide, by decide, (by intro a h; cases h), (by intro n h; cases h), by decide⟩, by decide⟩

theorem witness_PlacedWordRunsNext : decode 0xF065 = .ok (.load 0) ∧ State.reset.pc.toNat + 1 ≤ 0xFFF := by decide

end Sys2Proof.Tests
end

/-! The state right after INIT (10_state.md R38): what its memory reads as, through the rules for the reset contents. -/

namespace Sys2Proof.Machine

/-! ## The reset contents of memory (10_state.md R37, R38) -/

/-- In the font area, glyph `d` stands at 5 × d. -/
theorem resetByte_font (c : Config) (d : Fin 16) (k : Fin 5) : resetByte c (5 * d.val + k.val) = c.font[d][k] := by
  have hfont : 5 * d.val + k.val < 80 := by omega
  have hglyph : (5 * d.val + k.val) / 5 = d.val := by omega
  have hrow : (5 * d.val + k.val) % 5 = k.val := by omega
  simp only [resetByte, dif_pos hfont, hglyph, hrow, Fin.getElem_fin]

theorem resetByte_above_font (c : Config) {a : Nat} (ha : 0x50 ≤ a) :
    resetByte c a = (Memory.lookup c.memInit a).getD 0 :=
  dif_neg (Nat.not_lt.mpr ha)

/-! ## The state right after INIT -/

@[simp] theorem State.start_reg (c : Config) (r : Reg) : (State.start c).reg r = 0 :=
  Vector.getElem_replicate r.isLt

/-- Memory lists nothing after INIT, so every address reads as its reset contents. -/
@[simp] theorem State.start_byteAt (c : Config) (a : Nat) : (State.start c).byteAt a = resetByte c a := rfl

@[simp] theorem State.start_pixel (c : Config) (col : Fin 64) (row : Fin 32) :
    (State.start c).pixel col row = pixelOf c.fbInit col row := rfl

/-- `State.reset` has parameters that 00_scope.md R6 allows. -/
theorem defaultConfig_wf : defaultConfig.wf = true := rfl

/-- Settles O18: the scalar elements stand in `State.start`, memory reads as its reset contents, and the parameters of
`State.reset` are `defaultConfig`. -/
theorem resetHoldsTheSpecsValues : Obligations.ResetHoldsTheSpecsValues := by
  unfold Obligations.ResetHoldsTheSpecsValues
  refine ⟨fun c => ?_, defaultConfig, defaultConfig_wf, rfl⟩
  have hfont : ∀ (d : Fin 16) (k : Fin 5), (State.start c).byteAt (5 * d.val + k.val) = c.font[d][k] :=
    fun d k => (State.start_byteAt c _).trans (resetByte_font c d k)
  have hmemInit : ∀ a, 0x50 ≤ a → a ≤ 0xFFF → (State.start c).byteAt a = (Memory.lookup c.memInit a).getD 0 :=
    fun a ha _ => (State.start_byteAt c a).trans (resetByte_above_font c ha)
  exact ⟨State.start_reg c, rfl, rfl, rfl, rfl, rfl, hfont, hmemInit, State.start_pixel c, rfl, rfl⟩

end Sys2Proof.Machine


/-! Family 0x0 of the decoder (30_encoding.md R76): which words are in it, and what each of them decodes to. -/

namespace Sys2Proof

/-! ## The words of family 0x0 -/

theorem fieldH_eq_zero {op : Word} (h : op.toNat ≤ 0x0FFF) : fieldH op = 0x0#4 := by
  apply BitVec.eq_of_toNat_eq
  rw [fieldH_toNat, Nat.div_eq_of_lt (Nat.lt_succ_of_le h), BitVec.toNat_ofNat]

theorem fieldNNN_eq_ofNat (op : Word) : fieldNNN op = BitVec.ofNat 12 op.toNat := by
  apply BitVec.eq_of_toNat_eq
  rw [fieldNNN_toNat, BitVec.toNat_ofNat]

/-! ## What they decode to -/

/-- The decoder sends a word of family 0x0 to that family's decoder, which answers no error. -/
theorem decode_familyZero {op : Word} (h : op.toNat ≤ 0x0FFF) : decode op = .ok (decodeFamily0 op) := by
  simp only [decode, fieldH_eq_zero h]

theorem decodeFamily0_clear : decodeFamily0 0x00E0#16 = .clear := rfl

theorem decodeFamily0_ret : decodeFamily0 0x00EE#16 = .ret := rfl

theorem decodeFamily0_noOp {op : Word} (hclear : op ≠ 0x00E0#16) (hret : op ≠ 0x00EE#16) :
    decodeFamily0 op = .noOp (BitVec.ofNat 12 op.toNat) := by
  rw [decodeFamily0, if_neg hclear, if_neg hret, fieldNNN_eq_ofNat]

/-- Settles O4: a word up to 0x0FFF has family 0x0, whose decoder tests for 00E0, then for 00EE, and takes every other
word as NoOp. -/
theorem familyZeroHasNoDecodeError : Obligations.FamilyZeroHasNoDecodeError := by
  unfold Obligations.FamilyZeroHasNoDecodeError
  refine ⟨?clear, ?ret, ?noOp⟩
  case clear => rw [decode_familyZero (by decide), decodeFamily0_clear]
  case ret => rw [decode_familyZero (by decide), decodeFamily0_ret]
  case noOp =>
    intro op hfamily hclear hret
    rw [decode_familyZero hfamily, decodeFamily0_noOp hclear hret]

end Sys2Proof

/-! Frames (60_exceptions.md R222 and the frame of each statement): what an update of the pc, of the stack, or of the
fault record leaves unchanged, and how frames compose. -/

namespace Sys2Proof.Machine

/-! ## One element -/

theorem SameElement.refl (e : Element) (s : State) : SameElement e s s := by
  cases e with
  | v | mem => exact fun _ => rfl
  | pix => exact fun _ _ => rfl
  | _ => exact rfl

theorem SameElement.trans {e : Element} {s t u : State} (hst : SameElement e s t) (htu : SameElement e t u) :
    SameElement e s u := by
  cases e with
  | v | mem => exact fun k => (htu k).trans (hst k)
  | pix => exact fun c r => (htu c r).trans (hst c r)
  | _ => exact Eq.trans htu hst

/-! ## Frames -/

/-- The elements that the second update changes come first. -/
theorem FrameBut.trans {l l' : List Element} {s t u : State} (hst : FrameBut l s t) (htu : FrameBut l' t u) :
    FrameBut (l' ++ l) s u := by
  intro e he
  obtain ⟨hlater, hearlier⟩ := not_or.mp (mt List.mem_append.mpr he)
  exact (hst e hearlier).trans (htu e hlater)

theorem frameBut_pc (s : State) (target : Word) : FrameBut [.pc] s { s with pc := target } := by
  intro e he
  have hsame : SameElement e s s := SameElement.refl e s
  cases e with
  | pc => exact absurd (List.mem_singleton_self _) he
  | _ => exact hsame

theorem frameBut_stack (s : State) (entries : List Word) : FrameBut [.stack] s { s with stack := entries } := by
  intro e he
  have hsame : SameElement e s s := SameElement.refl e s
  cases e with
  | stack => exact absurd (List.mem_singleton_self _) he
  | _ => exact hsame

theorem frameBut_faulted (s : State) (code : FaultCode) (opcode info : Word) :
    FrameBut [.halted, .fault] s (s.faulted code opcode info) := by
  intro e he
  have hsame : SameElement e s s := SameElement.refl e s
  cases e with
  | halted | fault => exact absurd (by decide) he
  | _ => exact hsame

/-- The state in which a fault leaves the block is what a fault must answer (60_exceptions.md R222). -/
theorem faultsWith_faulted (s : State) (code : FaultCode) (opcode info : Word) :
    FaultsWith { code := code, pc := s.pc, opcode := opcode, info := info } s (s.faulted code opcode info) :=
  ⟨rfl, rfl, frameBut_faulted s code opcode info⟩

end Sys2Proof.Machine


/-! Control flow (40_control_flow.md R105 to R109): the answer of each of the five instructions, said once, and the
statements about them. -/

namespace Sys2Proof.Machine

section
variable (s : State) (nnn : BitVec 12)

/-! ## NoOp, Jump, JumpOffset -/

theorem exec_noOp : exec (.noOp nnn) s = .next { s with pc := s.pc + 2 } := s.advance_eq

theorem exec_jump : exec (.jump nnn) s = .next { s with pc := addressOf nnn } := s.jumpTo_eq _

theorem exec_jumpOffset :
    exec (.jumpOffset nnn) s = .next { s with pc := addressOf nnn + zext16 (s.reg 0) } := s.jumpTo_eq _

/-- A 12-bit address and a byte add up to less than 2^16. -/
theorem addressOf_add_zext16_toNat (b : Byte) : (addressOf nnn + zext16 b).toNat = nnn.toNat + b.toNat := by
  rw [BitVec.toNat_add, addressOf_toNat, zext16_toNat]
  omega

/-! ## Call -/

theorem State.stackFull_iff : s.stackFull = true ↔ s.cfg.stackLimit = some s.stack.length := beq_iff_eq

theorem exec_call_of_full (h : s.cfg.stackLimit = some s.stack.length) :
    exec (.call nnn) s = .next (s.faulted .stackOverflow (encode (.call nnn)) 0) :=
  if_pos (s.stackFull_iff.mpr h)

theorem exec_call_of_not_full (h : s.cfg.stackLimit ≠ some s.stack.length) :
    exec (.call nnn) s = .next { s.push (s.pc + 2) with pc := addressOf nnn } :=
  (if_neg (mt s.stackFull_iff.mp h)).trans (State.jumpTo_eq _ _)

end

/-! ## Ret -/

theorem exec_ret_of_nil {s : State} (h : s.stack = []) :
    exec .ret s = .next (s.faulted .stackUnderflow (encode .ret) 0) := by
  simp only [exec, execRet, h, List.getLast?_nil, State.raise_eq]

theorem exec_ret_of_append {s : State} {rest : List Word} {a : Word} (h : s.stack = rest ++ [a]) :
    exec .ret s = .next { s with stack := rest, pc := a } := by
  simp only [exec, execRet, State.pop, h, List.getLast?_concat, List.dropLast_concat, State.jumpTo_eq]

/-! ## The statements -/

/-- Settles O21: the test of Call is `State.stackFull`; below the limit a push and a write of the pc, at it a fault. -/
theorem callPushesTheReturnAddress : Obligations.CallPushesTheReturnAddress := by
  unfold Obligations.CallPushesTheReturnAddress
  refine fun s nnn => ⟨fun hroom => ?below, fun hfull => ?atLimit⟩
  case below =>
    have hframe : FrameBut [.pc, .stack] s { s.push (s.pc + 2) with pc := addressOf nnn } :=
      (frameBut_stack s _).trans (frameBut_pc _ _)
    exact ⟨_, exec_call_of_not_full s nnn hroom, rfl, addressOf_toNat nnn, hframe⟩
  case atLimit => exact ⟨_, exec_call_of_full s nnn hfull, faultsWith_faulted s _ _ _⟩

/-- Settles O22: a stack that ends in `a` loses that entry and the pc becomes `a`; an empty one is a fault. -/
theorem retReturnsToTheLastEntry : Obligations.RetReturnsToTheLastEntry := by
  unfold Obligations.RetReturnsToTheLastEntry
  refine fun s => ⟨fun rest a hstack => ?pops, fun hempty => ?underflow⟩
  case pops =>
    have hframe : FrameBut [.pc, .stack] s { s with stack := rest, pc := a } :=
      (frameBut_stack s rest).trans (frameBut_pc _ a)
    exact ⟨_, exec_ret_of_append hstack, rfl, rfl, hframe⟩
  case underflow => exact ⟨_, exec_ret_of_nil hempty, faultsWith_faulted s _ _ _⟩

/-- Settles O19: NoOp ends with the uniform advance. -/
theorem noOpOnlyAdvancesThePc : Obligations.NoOpOnlyAdvancesThePc := by
  unfold Obligations.NoOpOnlyAdvancesThePc
  exact fun s nnn => ⟨_, exec_noOp s nnn, rfl, frameBut_pc s _⟩

/-- Settles O20: the net pc of Jump is `nnn`, zero extended. -/
theorem jumpSetsThePc : Obligations.JumpSetsThePc := by
  unfold Obligations.JumpSetsThePc
  exact fun s nnn => ⟨_, exec_jump s nnn, addressOf_toNat nnn, frameBut_pc s _⟩

/-- Settles O23: the 16-bit sum that JumpOffset lands on does not wrap. -/
theorem jumpOffsetAddsV0 : Obligations.JumpOffsetAddsV0 := by
  unfold Obligations.JumpOffsetAddsV0
  exact fun s nnn => ⟨_, exec_jumpOffset s nnn, addressOf_add_zext16_toNat nnn (s.reg 0), frameBut_pc s _⟩

end Sys2Proof.Machine


/-! The halted state (40_control_flow.md R104; 60_exceptions.md R227): what each host operation leaves of it. -/

namespace Sys2Proof.Machine

theorem stepOp_of_halted {s : State} (h : s.halted = true) (key : Keys) (rnd : Option Byte) :
    stepOp key rnd s = .next s := if_pos h

/-- When LOAD_ROM has a next state, and which one (70_reset_and_hazards.md R251). -/
theorem loadRomOp_eq_next_iff (bytes : List Byte) (s t : State) : loadRomOp bytes s = .next t ↔
    s.phase = .initDone ∧ bytes.length ≤ 3584 ∧ t = { s.storeBytes 0x200 bytes with phase := .loaded } := by
  by_cases hphase : s.phase = .initDone
  · by_cases hlong : 3584 < bytes.length
    · simp [loadRomOp, hphase, hlong, Nat.not_le.mpr hlong]
    · simpa [loadRomOp, hphase, hlong, Nat.not_lt.mp hlong] using eq_comm
  · simp [loadRomOp, hphase]

/-- Settles O11: of the operations other than INIT, LOAD_ROM and TICK do not write `halted`, and STEP changes nothing. -/
theorem haltedStepChangesNothing : Obligations.HaltedStepChangesNothing := by
  unfold Obligations.HaltedStepChangesNothing
  refine fun s hhalted => ⟨stepOp_of_halted hhalted, fun op t hop hnext => ?_⟩
  cases op with
  | init => exact absurd rfl hop
  | loadRom bytes =>
    obtain ⟨_, _, rfl⟩ := (loadRomOp_eq_next_iff bytes s t).mp hnext
    exact hhalted
  | step key rnd =>
    cases (stepOp_of_halted hhalted key (some rnd)).symm.trans hnext
    exact hhalted
  | tick =>
    cases hnext
    exact hhalted

end Sys2Proof.Machine


/-! Skips (41_skips.md R120 to R126): what a conditional skip and a skip on a key answer, said once, and the statements
about the six instructions. -/

namespace Sys2Proof.Machine

section
variable (s : State)

/-! ## The shared operations -/

/-- A skip whose Boolean test decides `p` goes on by 4 or by 2 and writes nothing else (41_skips.md R120). -/
theorem State.skipIf_writesPc {taken : Bool} {p : Prop} [Decidable p] (h : taken = true ↔ p) :
    ∃ t, s.skipIf taken = .next t ∧ WritesPc (if p then s.pc + 4 else s.pc + 2) s t :=
  ⟨_, s.skipIf_eq taken, if_congr h rfl rfl, frameBut_pc s _⟩

theorem zext16_eq_ofNat (b : Byte) : zext16 b = BitVec.ofNat 16 b.toNat := (BitVec.ofNat_toNat 16 b).symm

section
variable (opcode : Word) {k : Byte} (down : Bool)

/-- A key number up to 0xF: a skip on the state of that key. -/
theorem skipOnKey_writesPc (h : k.toNat ≤ 0xF) :
    ∃ t, skipOnKey opcode k down s = .next t ∧
      WritesPc (if s.key.getLsbD k.toNat = down then s.pc + 4 else s.pc + 2) s t := by
  rw [skipOnKey_eq, if_pos h]
  exact ⟨_, rfl, if_congr beq_iff_eq rfl rfl, frameBut_pc s _⟩

/-- A key number above 0xF: KeyIndexFault, whose information is that number. -/
theorem skipOnKey_faultsWith (h : k.toNat > 0xF) :
    ∃ t, skipOnKey opcode k down s = .next t ∧
      FaultsWith { code := .keyIndexFault, pc := s.pc, opcode := opcode, info := BitVec.ofNat 16 k.toNat } s t := by
  rw [skipOnKey_eq, if_neg (Nat.not_le.mpr h), zext16_eq_ofNat]
  exact ⟨_, rfl, faultsWith_faulted s _ _ _⟩

end

/-! ## The six instructions -/

variable (x y : Reg) (nn : Byte)

theorem exec_skipEqRegVal : exec (.skipEqRegVal x nn) s = s.skipIf (s.reg x == nn) := rfl

theorem exec_skipNeqRegVal : exec (.skipNeqRegVal x nn) s = s.skipIf (s.reg x != nn) := rfl

theorem exec_skipEqRegReg : exec (.skipEqRegReg x y) s = s.skipIf (s.reg x == s.reg y) := rfl

theorem exec_skipNeqRegReg : exec (.skipNeqRegReg x y) s = s.skipIf (s.reg x != s.reg y) := rfl

theorem exec_skipKeyPressed :
    exec (.skipKeyPressed x) s = skipOnKey (encode (.skipKeyPressed x)) (s.reg x) true s := rfl

theorem exec_skipKeyNotPressed :
    exec (.skipKeyNotPressed x) s = skipOnKey (encode (.skipKeyNotPressed x)) (s.reg x) false s := rfl

end

/-! ## The statements -/

/-- Settles O26: both key skips are `skipOnKey` of `V[x]`, for a pressed and for a released key. -/
theorem keySkipsTestTheKeyOrFault : Obligations.KeySkipsTestTheKeyOrFault := by
  unfold Obligations.KeySkipsTestTheKeyOrFault
  intro s x
  rw [exec_skipKeyPressed, exec_skipKeyNotPressed]
  refine ⟨fun hkey => ⟨?pressed, ?notPressed⟩, fun habove => ⟨?pressedFault, ?notPressedFault⟩⟩
  case pressed => exact skipOnKey_writesPc s _ true hkey
  case notPressed => exact skipOnKey_writesPc s _ false hkey
  case pressedFault => exact skipOnKey_faultsWith s _ true habove
  case notPressedFault => exact skipOnKey_faultsWith s _ false habove

/-- Settles O25: each register skip is `State.skipIf` of a Boolean test that decides its comparison. -/
theorem registerSkipsCompareAndSkip : Obligations.RegisterSkipsCompareAndSkip := by
  unfold Obligations.RegisterSkipsCompareAndSkip
  intro s x y nn
  rw [exec_skipEqRegVal, exec_skipNeqRegVal, exec_skipEqRegReg, exec_skipNeqRegReg]
  refine ⟨?eqVal, ?neqVal, ?eqReg, ?neqReg⟩
  case eqVal | eqReg => exact s.skipIf_writesPc beq_iff_eq
  case neqVal | neqReg => exact s.skipIf_writesPc bne_iff_ne

end Sys2Proof.Machine

/-! Register writers (42_alu.md R140 to R141; 40_control_flow.md R103): what writing one register leaves unchanged, and
what an instruction that writes registers and then advances the pc answers. -/

namespace Sys2Proof.Machine

/-! ## Frames -/

/-- A frame may list more elements, and in another order. -/
theorem FrameBut.mono {l l' : List Element} {s t : State} (h : FrameBut l s t) (hsub : l ⊆ l') : FrameBut l' s t :=
  fun e he => h e (mt (@hsub e) he)

theorem RegsBut.trans {l : List Reg} {s t u : State} (hst : RegsBut l s t) (htu : RegsBut l t u) : RegsBut l s u :=
  fun r hr => (htu r hr).trans (hst r hr)

section
variable (s : State)

/-- Any update of the registers alone, `State.setReg` once or several times included. -/
theorem frameBut_v (regs : Vector Byte 16) : FrameBut [.v] s { s with v := regs } := by
  intro e he
  have hsame : SameElement e s s := SameElement.refl e s
  cases e with
  | v => exact absurd (List.mem_singleton_self _) he
  | _ => exact hsame

theorem frameBut_nextFree : FrameBut [.freeCount] s s.nextFree := by
  intro e he
  have hsame : SameElement e s s := SameElement.refl e s
  cases e with
  | freeCount => exact absurd (List.mem_singleton_self _) he
  | _ => exact hsame

theorem regsBut_setReg {l : List Reg} {x : Reg} (hx : x ∈ l) (b : Byte) : RegsBut l s (s.setReg x b) :=
  fun r hr => s.reg_setReg_of_ne x r b (ne_of_mem_of_not_mem hx hr).symm

end

/-! ## The advance after a write -/

/-- The advance keeps the registers, and the pc goes on by 2 from where the instruction stood. -/
theorem State.advance_after_write {s t : State} {regs : List Reg} {changed : List Element} (hregs : RegsBut regs s t)
    (hframe : FrameBut changed s t) (hpc : Element.pc ∉ changed) :
    ∃ u, t.advance = .next u ∧ (∀ r, u.reg r = t.reg r) ∧
      RegsBut regs s u ∧ u.pc = s.pc + 2 ∧ FrameBut (.pc :: changed) s u := by
  have hkept : t.pc = s.pc := hframe .pc hpc
  exact ⟨_, t.advance_eq, fun _ => rfl, hregs, congrArg (· + 2) hkept, hframe.trans (frameBut_pc t _)⟩

section
variable (s : State)

/-- An instruction that writes one register and nothing else. -/
theorem State.setReg_advance_writesRegister (x : Reg) (b : Byte) :
    ∃ t, (s.setReg x b).advance = .next t ∧ WritesRegister x b s t := by
  obtain ⟨t, hnext, hreg, hothers, hpc, hframe⟩ :=
    State.advance_after_write (regsBut_setReg s (List.mem_singleton_self x) b) (frameBut_v s _) (by decide)
  exact ⟨t, hnext, (hreg x).trans (s.reg_setReg_same x b), hothers, hpc, hframe.mono (by decide)⟩

/-- The same, for a byte given by its bits. -/
theorem State.setReg_advance_bits (x : Reg) {b : Byte} {bit : Nat → Bool} (hbits : ∀ k, b.getLsbD k = bit k) :
    ∃ t b', (s.setReg x b).advance = .next t ∧ WritesRegister x b' s t ∧ ∀ k < 8, b'.getLsbD k = bit k := by
  obtain ⟨t, hnext, hwrites⟩ := s.setReg_advance_writesRegister x b
  exact ⟨t, b, hnext, hwrites, fun k _ => hbits k⟩

end

end Sys2Proof.Machine


/-! Loads, logic and random (42_alu.md R142 to R147, R153): the instructions that write one register and no flag. -/

namespace Sys2Proof.Machine

section
variable (s : State) (x y : Reg) (nn : Byte)

theorem exec_setRegVal : exec (.setRegVal x nn) s = (s.setReg x nn).advance := rfl

theorem exec_setRegReg : exec (.setRegReg x y) s = (s.setReg x (s.reg y)).advance := rfl

theorem exec_addRegVal : exec (.addRegVal x nn) s = (s.setReg x (s.reg x + nn)).advance := rfl

theorem exec_orRegReg : exec (.orRegReg x y) s = (s.setReg x (s.reg x ||| s.reg y)).advance := rfl

theorem exec_andRegReg : exec (.andRegReg x y) s = (s.setReg x (s.reg x &&& s.reg y)).advance := rfl

theorem exec_xorRegReg : exec (.xorRegReg x y) s = (s.setReg x (s.reg x ^^^ s.reg y)).advance := rfl

theorem exec_setRegRand : exec (.setRegRand x nn) s = (s.setReg x (s.random &&& nn)).nextFree.advance := rfl

end

/-- The wrap of 8-bit addition, written out (42_alu.md R140). -/
theorem byte_add_eq_ofNat (a b : Byte) : a + b = BitVec.ofNat 8 ((a.toNat + b.toNat) % 256) := by
  apply BitVec.eq_of_toNat_eq
  rw [BitVec.toNat_add, BitVec.toNat_ofNat, Nat.mod_mod]

/-- RND is the byte the host names, where it names one (10_state.md R34). -/
theorem State.random_of_some {s : State} {q : Byte} (h : s.rnd = some q) : s.random = q := by
  rw [State.random, h, Option.getD_some]

/-! ## The statements -/

/-- Settles O29: each of the three writes the bitwise operation on the two old bytes to one register. -/
theorem logicWorksBitByBitWithoutFlag : Obligations.LogicWorksBitByBitWithoutFlag := by
  unfold Obligations.LogicWorksBitByBitWithoutFlag
  intro s x y
  rw [exec_orRegReg, exec_andRegReg, exec_xorRegReg]
  refine ⟨?orBits, ?andBits, ?xorBits⟩
  case orBits => exact s.setReg_advance_bits x fun _ => BitVec.getLsbD_or
  case andBits => exact s.setReg_advance_bits x fun _ => BitVec.getLsbD_and
  case xorBits => exact s.setReg_advance_bits x fun _ => BitVec.getLsbD_xor

/-- Settles O27: both loads write one register and advance. -/
theorem registerLoadsWriteOneRegister : Obligations.RegisterLoadsWriteOneRegister := by
  unfold Obligations.RegisterLoadsWriteOneRegister
  intro s x y nn
  rw [exec_setRegVal, exec_setRegReg]
  exact ⟨s.setReg_advance_writesRegister x nn, s.setReg_advance_writesRegister x (s.reg y)⟩

/-- Settles O28: the immediate add writes one register, and its 8-bit sum is the sum mod 256. -/
theorem addRegValWrapsWithoutFlag : Obligations.AddRegValWrapsWithoutFlag := by
  unfold Obligations.AddRegValWrapsWithoutFlag
  intro s x nn
  rw [exec_addRegVal, byte_add_eq_ofNat]
  exact s.setReg_advance_writesRegister x _

/-- Settles O34: the byte is `State.random`, and the counter of free values is written too. -/
theorem setRegRandMasksTheRandomByte : Obligations.SetRegRandMasksTheRandomByte := by
  unfold Obligations.SetRegRandMasksTheRandomByte
  intro s x nn
  rw [exec_setRegRand]
  have hregs : RegsBut [x] s (s.setReg x (s.random &&& nn)).nextFree :=
    regsBut_setReg s (List.mem_singleton_self x) _
  obtain ⟨t, hnext, hreg, hothers, hpc, hframe⟩ :=
    State.advance_after_write hregs ((frameBut_v s _).trans (frameBut_nextFree _)) (by decide)
  have hresult : t.reg x = s.random &&& nn := (hreg x).trans (s.reg_setReg_same x _)
  exact ⟨t, s.random, hnext, fun q hq => (State.random_of_some hq).symm, hresult, hothers, hpc, hframe.mono (by decide)⟩

end Sys2Proof.Machine


/-! Adds, subtracts and shifts (42_alu.md R141, R148 to R152): a result and the flag, in either order of the two writes. -/

namespace Sys2Proof.Machine

/-! ## The flag conditions -/

section
variable (a b : Byte)

theorem carry_iff : carry a b = true ↔ a.toNat + b.toNat > 255 := decide_eq_true_iff

theorem noBorrow_iff : noBorrow a b = true ↔ a.toNat ≥ b.toNat := decide_eq_true_iff

theorem highBit_iff : highBit a = true ↔ a.toNat ≥ 128 := by
  rw [highBit, BitVec.getLsbD_last (w := 8) a, decide_eq_true_iff]

/-- The flag's byte, for a condition that decides `p`. -/
theorem flagByte_eq_ite {c : Bool} {p : Prop} [Decidable p] (h : c = true ↔ p) : flagByte c = if p then 1 else 0 :=
  if_congr h rfl rfl

theorem flagByte_toNat (c : Bool) : (flagByte c).toNat = c.toNat := by
  cases c <;> rfl

/-- The flag of a right shift, as a number: bit 0. -/
theorem flagByte_lowBit_toNat : (flagByte (lowBit a)).toNat = a.toNat % 2 := by
  rw [flagByte_toNat, lowBit, BitVec.getLsbD, Nat.toNat_testBit, Nat.pow_zero, Nat.div_one]

/-- The flag of a left shift, as a number: bit 7. -/
theorem flagByte_highBit_toNat : (flagByte (highBit a)).toNat = a.toNat / 128 := by
  have hlt : a.toNat < 256 := a.isLt
  rw [flagByte_toNat, highBit, BitVec.getLsbD, Nat.toNat_testBit]
  omega

/-- The wrap of 8-bit subtraction, written out (42_alu.md R140). -/
theorem byte_sub_toNat : (a - b).toNat = (256 + a.toNat - b.toNat) % 256 := by
  have hlt : b.toNat < 256 := b.isLt
  rw [BitVec.toNat_sub]
  omega

theorem byte_shiftRight_one_toNat : (a >>> 1).toNat = a.toNat / 2 := by
  rw [BitVec.toNat_ushiftRight, Nat.shiftRight_one]

theorem byte_shiftLeft_one_toNat : (a <<< 1).toNat = a.toNat * 2 % 256 := by
  rw [BitVec.toNat_shiftLeft, Nat.shiftLeft_eq, Nat.pow_one]

end

/-! ## The two orders of writing (42_alu.md R141) -/

section
variable (s : State) (x : Reg)

/-- The result first, then the flag: the flag stays where `x` is VF. The result is given as a number and the flag by the
proposition it decides. -/
theorem State.setResultThenFlag_advance {result : Byte} {flag : Bool} {n : Nat} {p : Prop} [Decidable p]
    (hresult : result.toNat = n) (hflag : flag = true ↔ p) :
    ∃ t, (s.setResultThenFlag x result flag).advance = .next t ∧
      (x ≠ VF → (t.reg x).toNat = n) ∧ t.reg VF = (if p then 1 else 0) ∧
      RegsBut [x, VF] s t ∧ t.pc = s.pc + 2 ∧ FrameBut [.v, .pc] s t := by
  have hregs : RegsBut [x, VF] s (s.setResultThenFlag x result flag) :=
    (regsBut_setReg s (by simp) result).trans (regsBut_setReg _ (by simp) (flagByte flag))
  obtain ⟨t, hnext, hreg, hothers, hpc, hframe⟩ := State.advance_after_write hregs (frameBut_v s _) (by decide)
  have hx : x ≠ VF → t.reg x = result := fun hne =>
    (hreg x).trans ((State.reg_setReg_of_ne _ VF x _ hne).trans (s.reg_setReg_same x result))
  have hVF : t.reg VF = flagByte flag := (hreg VF).trans (State.reg_setFlag_same _ flag)
  exact ⟨t, hnext, fun hne => (congrArg BitVec.toNat (hx hne)).trans hresult, hVF.trans (flagByte_eq_ite hflag),
    hothers, hpc, hframe.mono (by decide)⟩

/-- One place to the left or to the right. -/
def shiftOne (left : Bool) (b : Byte) : Byte := if left then b <<< 1 else b >>> 1

theorem State.setFlagThenShift_eq (flag left : Bool) :
    s.setFlagThenShift x flag left = (s.setFlag flag).setReg x (shiftOne left ((s.setFlag flag).reg x)) := rfl

/-- The flag first, then the shift of what `V[x]` holds by then: the flag itself where `x` is VF. -/
theorem State.setFlagThenShift_advance (flag left : Bool) :
    ∃ t, (s.setFlagThenShift x flag left).advance = .next t ∧
      (x ≠ VF → t.reg x = shiftOne left (s.reg x) ∧ t.reg VF = flagByte flag) ∧
      (x = VF → t.reg VF = shiftOne left (flagByte flag)) ∧
      RegsBut [x, VF] s t ∧ t.pc = s.pc + 2 ∧ FrameBut [.v, .pc] s t := by
  rw [State.setFlagThenShift_eq]
  have hregs : RegsBut [x, VF] s ((s.setFlag flag).setReg x (shiftOne left ((s.setFlag flag).reg x))) :=
    (regsBut_setReg s (by simp) (flagByte flag)).trans (regsBut_setReg _ (by simp) _)
  obtain ⟨t, hnext, hreg, hothers, hpc, hframe⟩ := State.advance_after_write hregs (frameBut_v s _) (by decide)
  refine ⟨t, hnext, fun hne => ⟨?shifted, ?lostBit⟩, fun heq => ?shiftedFlag, hothers, hpc, hframe.mono (by decide)⟩
  case shifted => rw [hreg, State.reg_setReg_same, State.reg_setFlag, if_neg hne]
  case lostBit => rw [hreg, State.reg_setReg_of_ne _ _ _ _ hne.symm, State.reg_setFlag_same]
  case shiftedFlag => rw [hreg, heq, State.reg_setReg_same, State.reg_setFlag_same]

end

/-! ## The five instructions -/

section
variable (s : State) (x y : Reg)

theorem exec_addRegReg : exec (.addRegReg x y) s =
    (s.setResultThenFlag x (s.reg x + s.reg y) (carry (s.reg x) (s.reg y))).advance := rfl

theorem exec_subRegReg : exec (.subRegReg x y) s =
    (s.setResultThenFlag x (s.reg x - s.reg y) (noBorrow (s.reg x) (s.reg y))).advance := rfl

theorem exec_subReverseRegReg : exec (.subReverseRegReg x y) s =
    (s.setResultThenFlag x (s.reg y - s.reg x) (noBorrow (s.reg y) (s.reg x))).advance := rfl

theorem exec_shiftRight :
    exec (.shiftRight x) s = (s.setFlagThenShift x (lowBit (s.reg x)) false).advance := rfl

theorem exec_shiftLeft :
    exec (.shiftLeft x) s = (s.setFlagThenShift x (highBit (s.reg x)) true).advance := rfl

end

/-! ## The statements -/

/-- Settles O30: the 8-bit sum and the carry, in the order that lets the carry stay in VF. -/
theorem addRegRegSetsSumAndCarry : Obligations.AddRegRegSetsSumAndCarry := by
  unfold Obligations.AddRegRegSetsSumAndCarry
  intro s x y
  rw [exec_addRegReg]
  exact s.setResultThenFlag_advance x (BitVec.toNat_add _ _) (carry_iff _ _)

/-- Settles O31: the two subtracts are one operation with its operands exchanged. -/
theorem subtractsSetDifferenceAndNoBorrow : Obligations.SubtractsSetDifferenceAndNoBorrow := by
  unfold Obligations.SubtractsSetDifferenceAndNoBorrow
  intro s x y
  rw [exec_subRegReg, exec_subReverseRegReg]
  refine ⟨?forward, ?reverse⟩
  case forward => exact s.setResultThenFlag_advance x (byte_sub_toNat _ _) (noBorrow_iff _ _)
  case reverse => exact s.setResultThenFlag_advance x (byte_sub_toNat _ _) (noBorrow_iff _ _)

/-- Settles O32: with x = 0xF the flag's byte, 0 or 1, is shifted right, which leaves 0. -/
theorem shiftRightHalvesAndKeepsBitZero : Obligations.ShiftRightHalvesAndKeepsBitZero := by
  unfold Obligations.ShiftRightHalvesAndKeepsBitZero
  intro s x
  rw [exec_shiftRight]
  obtain ⟨t, hnext, hother, hVF, hframe⟩ := s.setFlagThenShift_advance x (lowBit (s.reg x)) false
  refine ⟨t, hnext, fun hne => ?_, fun heq => ?_, hframe⟩
  · obtain ⟨hresult, hflag⟩ := hother hne
    rw [hresult, hflag]
    exact ⟨byte_shiftRight_one_toNat _, flagByte_lowBit_toNat _⟩
  · have hzero : ∀ c, shiftOne false (flagByte c) = 0 := by decide
    rw [hVF heq, hzero]

/-- Settles O33: with x = 0xF the flag's byte, 0 or 1, is shifted left, which leaves 0 or 2. -/
theorem shiftLeftDoublesAndKeepsBitSeven : Obligations.ShiftLeftDoublesAndKeepsBitSeven := by
  unfold Obligations.ShiftLeftDoublesAndKeepsBitSeven
  intro s x
  rw [exec_shiftLeft]
  obtain ⟨t, hnext, hother, hVF, hframe⟩ := s.setFlagThenShift_advance x (highBit (s.reg x)) true
  refine ⟨t, hnext, fun hne => ?_, fun heq => ?_, hframe⟩
  · obtain ⟨hresult, hflag⟩ := hother hne
    rw [hresult, hflag]
    exact ⟨byte_shiftLeft_one_toNat _, flagByte_highBit_toNat _⟩
  · have hdouble : ∀ c, shiftOne true (flagByte c) = if c then 2 else 0 := by decide
    rw [hVF heq, hdouble, heq]
    exact if_congr (highBit_iff _) rfl rfl

end Sys2Proof.Machine


/-! Index accesses (43_index_memory.md R170 to R176): what a run of reads and a run of writes from I on answer, said
once, and what is unchanged by an instruction that writes I or memory. -/

namespace Sys2Proof.Machine

section
variable (s : State)

/-! ## Frames -/

theorem frameBut_i (w : Word) : FrameBut [.i] s { s with i := w } := by
  intro e he
  have hsame : SameElement e s s := SameElement.refl e s
  cases e with
  | i => exact absurd (List.mem_singleton_self _) he
  | _ => exact hsame

theorem frameBut_mem (m : Memory) : FrameBut [.mem] s { s with mem := m } := by
  intro e he
  have hsame : SameElement e s s := SameElement.refl e s
  cases e with
  | mem => exact absurd (List.mem_singleton_self _) he
  | _ => exact hsame

/-! ## Reading memory -/

/-- An address that memory does not list holds its reset contents. -/
theorem State.byteAt_of_lookup_eq_none {a : Nat} (h : s.mem.lookup a = none) : s.byteAt a = resetByte s.cfg a := by
  rw [State.byteAt, Memory.read, h, Option.getD_none]

/-- The bytes that a run of `n` reads from `a` on answers where none of them faults: `readBytes_eq_ok`. -/
def State.bytesFrom (a n : Nat) : List Byte := (List.range n).map fun k => s.byteAt (a + k)

@[simp] theorem State.bytesFrom_length (a n : Nat) : (s.bytesFrom a n).length = n := by
  rw [State.bytesFrom, List.length_map, List.length_range]

theorem State.bytesFrom_getElem (a n k : Nat) (hk : k < (s.bytesFrom a n).length) :
    (s.bytesFrom a n)[k] = s.byteAt (a + k) := by
  simp only [State.bytesFrom, List.getElem_map, List.getElem_range]

theorem readBytes_eq_ok {a n : Nat} (h : a + n ≤ 0x1000) : readBytes s a n = .ok (s.bytesFrom a n) :=
  (readBytes_eq s n a).trans (if_pos (.inl h))

theorem readBytes_eq_error {a n : Nat} (hn : n ≠ 0) (h : 0x1000 < a + n) :
    readBytes s a n = .error (max a 0x1000) :=
  (readBytes_eq s n a).trans (if_neg (not_or.mpr ⟨Nat.not_le.mpr h, hn⟩))

/-! ## Storing from I on (43_index_memory.md R170) -/

section
variable (opcode : Word) {bytes : List Byte}

/-- Where the whole run lies in memory: the bytes, nothing beside them, and the advance. -/
theorem storeAtIndex_stores (h : s.indexBase + bytes.length ≤ 0x1000) :
    ∃ t, storeAtIndex opcode bytes s = .next t ∧
      (∀ k (hk : k < bytes.length), t.byteAt (s.indexBase + k) = bytes[k]) ∧
      MemBut s.indexBase bytes.length s t ∧ t.pc = s.pc + 2 ∧ FrameBut [.mem, .pc] s t := by
  have hnext : storeAtIndex opcode bytes s = (s.storeBytes s.indexBase bytes).advance :=
    (storeAtIndex_eq s opcode bytes).trans (if_pos (.inl h))
  refine ⟨_, hnext.trans (State.advance_eq _), fun k hk => ?stored, fun a ha => ?kept, rfl, ?frame⟩
  case stored =>
    refine (s.byteAt_storeBytes _ _ bytes).trans ?_
    simp only [Nat.le_add_right, Nat.add_lt_add_iff_left, hk, and_self, dite_true, Nat.add_sub_cancel_left]
  case kept => exact (s.byteAt_storeBytes _ a bytes).trans (dif_neg ha)
  case frame => exact ((frameBut_mem s _).trans (frameBut_pc _ _)).mono (by decide)

/-- Where some byte of the run lies above 0xFFF: AddressFault. -/
theorem storeAtIndex_faultsWith (hbytes : bytes ≠ []) (h : 0x1000 < s.indexBase + bytes.length) :
    ∃ t, storeAtIndex opcode bytes s = .next t ∧
      FaultsWith { code := .addressFault, pc := s.pc, opcode := opcode,
                   info := BitVec.ofNat 16 (max s.indexBase 0x1000) } s t :=
  ⟨_, (storeAtIndex_eq s opcode bytes).trans (if_neg (not_or.mpr ⟨Nat.not_le.mpr h, hbytes⟩)),
    faultsWith_faulted s _ _ _⟩

end

/-! ## Writing I -/

theorem State.setI_advance (w : Word) :
    ∃ t, (s.setI w).advance = .next t ∧ t.i = w ∧ t.pc = s.pc + 2 ∧ FrameBut [.i, .pc] s t :=
  ⟨_, State.advance_eq _, rfl, rfl, ((frameBut_i s w).trans (frameBut_pc _ _)).mono (by decide)⟩

end

end Sys2Proof.Machine


/-! Index register and memory (43_index_memory.md R171 to R176): the answer of each of the six instructions, and the
statements about them. -/

namespace Sys2Proof.Machine

/-! ## Values -/

/-- Five times a byte does not wrap in 16 bits. -/
theorem five_mul_zext16_toNat (b : Byte) : (5 * zext16 b).toNat = 5 * b.toNat := by
  have hfive : (5 : Word).toNat = 5 := rfl
  rw [BitVec.toNat_mul, hfive, zext16_toNat]
  omega

/-- Each digit is below 10, so its byte holds it (43_index_memory.md R174). -/
theorem bcdDigits_getElem_toNat (b : Byte) (k : Fin 3) :
    (bcdDigits b)[k].toNat = [b.toNat / 100, b.toNat / 10 % 10, b.toNat % 10][k] := by
  have hb : b.toNat < 256 := b.isLt
  have hbyte : ∀ n < 256, (BitVec.ofNat 8 n).toNat = n := fun n hn =>
    (BitVec.toNat_ofNat n 8).trans (Nat.mod_eq_of_lt hn)
  match k with
  | 0 | 1 | 2 => exact hbyte _ (by omega)

section
variable (s : State) (x : Reg) (nnn : BitVec 12)

theorem State.regsUpTo_ne_nil : s.regsUpTo x ≠ [] :=
  List.ne_nil_of_length_eq_add_one (s.regsUpTo_length x)

/-! ## The six instructions -/

theorem exec_setI : exec (.setI nnn) s = (s.setI (addressOf nnn)).advance := rfl

theorem exec_addIReg : exec (.addIReg x) s = (s.setI (s.i + zext16 (s.reg x))).advance := rfl

theorem exec_setISpriteReg : exec (.setISpriteReg x) s = (s.setI (5 * zext16 (s.reg x))).advance := rfl

theorem exec_bcd : exec (.bcd x) s = storeAtIndex (encode (.bcd x)) (bcdDigits (s.reg x)) s := rfl

theorem exec_dump : exec (.dump x) s = storeAtIndex (encode (.dump x)) (s.regsUpTo x) s := rfl

theorem exec_load_of_fits (h : s.indexBase + x.val ≤ 0xFFF) :
    exec (.load x) s = (s.setRegs (setRegsFrom s.v 0 (s.bytesFrom s.indexBase (x.val + 1)))).advance := by
  have hfits : s.indexBase + (x.val + 1) ≤ 0x1000 := Nat.succ_le_succ h
  simp only [exec, execLoad, readBytes_eq_ok s hfits]

theorem exec_load_of_above (h : s.indexBase + x.val > 0xFFF) :
    exec (.load x) s =
      .next (s.faulted .addressFault (encode (.load x)) (BitVec.ofNat 16 (max s.indexBase 0x1000))) := by
  have habove : 0x1000 < s.indexBase + (x.val + 1) := Nat.succ_lt_succ h
  simp only [exec, execLoad, readBytes_eq_error s (Nat.succ_ne_zero _) habove, State.raiseAddress_eq]

/-- The registers up to `x` take the bytes at I and on; the rest keep theirs (43_index_memory.md R176). -/
theorem State.reg_setRegsFrom_bytesFrom (a : Nat) (r : Reg) :
    (s.setRegs (setRegsFrom s.v 0 (s.bytesFrom a (x.val + 1)))).reg r =
      if r ≤ x then s.byteAt (a + r.val) else s.reg r := by
  refine (setRegsFrom_getElem _ s.v 0 r.val r.isLt).trans ?_
  simp only [State.bytesFrom_getElem, State.bytesFrom_length, Nat.zero_le, true_and, Nat.zero_add, Nat.sub_zero,
    Nat.lt_succ_iff, Fin.val_fin_le, dite_eq_ite]
  rfl

end

/-! ## The statements -/

/-- Settles O37: BCD is a store of the three digits from I on. -/
theorem bcdStoresThreeDigits : Obligations.BcdStoresThreeDigits := by
  unfold Obligations.BcdStoresThreeDigits
  intro s x
  rw [exec_bcd]
  refine ⟨fun hfits => ?stores, fun habove => ?faults⟩
  case stores =>
    obtain ⟨t, hnext, hbytes, hrest, hpc, hframe⟩ :=
      storeAtIndex_stores s (encode (.bcd x)) (bytes := bcdDigits (s.reg x)) (Nat.succ_le_succ hfits)
    have hdigit : ∀ k : Fin 3, (t.byteAt (s.indexBase + k.val)).toNat =
        [(s.reg x).toNat / 100, (s.reg x).toNat / 10 % 10, (s.reg x).toNat % 10][k] := fun k =>
      (congrArg BitVec.toNat (hbytes k.val k.isLt)).trans (bcdDigits_getElem_toNat _ k)
    exact ⟨t, hnext, hdigit 0, hdigit 1, hdigit 2, hrest, hpc, hframe⟩
  case faults => exact storeAtIndex_faultsWith s _ (List.cons_ne_nil _ _) (Nat.succ_lt_succ habove)

/-- Settles O38: Dump is a store of the registers up to `x` from I on. -/
theorem dumpStoresTheRegisters : Obligations.DumpStoresTheRegisters := by
  unfold Obligations.DumpStoresTheRegisters
  intro s x
  rw [exec_dump]
  have hlen : (s.regsUpTo x).length = x.val + 1 := s.regsUpTo_length x
  refine ⟨fun hfits => ?stores, fun habove => ?faults⟩
  case stores =>
    obtain ⟨t, hnext, hbytes, hrest, hpc, hframe⟩ :=
      storeAtIndex_stores s (encode (.dump x)) (bytes := s.regsUpTo x) (by omega)
    have hregs : ∀ r : Reg, r ≤ x → t.byteAt (s.indexBase + r.val) = s.reg r := fun r hr =>
      (hbytes r.val (hlen ▸ Nat.lt_succ_of_le hr)).trans (s.regsUpTo_getElem x r.val _)
    exact ⟨t, hnext, hregs, hlen ▸ hrest, hpc, hframe⟩
  case faults => exact storeAtIndex_faultsWith s _ (s.regsUpTo_ne_nil x) (by omega)

/-- Settles O39: Load is a run of reads from I on, written to the registers up to `x` where no read faults. -/
theorem loadReadsTheRegisters : Obligations.LoadReadsTheRegisters := by
  unfold Obligations.LoadReadsTheRegisters
  refine fun s x => ⟨fun hfits => ?loads, fun habove => ?faults⟩
  case loads =>
    have hnext := (exec_load_of_fits s x hfits).trans (State.advance_eq _)
    exact ⟨_, hnext, s.reg_setRegsFrom_bytesFrom x s.indexBase, rfl,
      ((frameBut_v s _).trans (frameBut_pc _ _)).mono (by decide)⟩
  case faults => exact ⟨_, exec_load_of_above s x habove, faultsWith_faulted s _ _ _⟩

/-- Settles O36: I becomes 5 × `V[x]` without a wrap, and glyph `d` stands at 5 × d of the reset contents. -/
theorem setISpriteRegPointsAtTheGlyph : Obligations.SetISpriteRegPointsAtTheGlyph := by
  unfold Obligations.SetISpriteRegPointsAtTheGlyph
  intro s x
  rw [exec_setISpriteReg]
  obtain ⟨t, hnext, hi, hpc, hframe⟩ := s.setI_advance (5 * zext16 (s.reg x))
  have hbase : t.i.toNat = 5 * (s.reg x).toNat := (congrArg BitVec.toNat hi).trans (five_mul_zext16_toNat _)
  refine ⟨t, hnext, hbase, hpc, hframe, fun d hd hfont k => ?_⟩
  have hmem : ∀ a, t.byteAt a = s.byteAt a := hframe .mem (by decide)
  have harea : 5 * d.val + k.val < 80 := by omega
  rw [hbase, hd, hmem, s.byteAt_of_lookup_eq_none (hfont _ harea), resetByte_font]

/-- Settles O35: both write I and nothing else; the sum of AddIReg is one of 16 bits. -/
theorem indexWritersSetI : Obligations.IndexWritersSetI := by
  unfold Obligations.IndexWritersSetI
  intro s x nnn
  rw [exec_setI, exec_addIReg]
  refine ⟨?setI, ?addIReg⟩
  case setI =>
    obtain ⟨t, hnext, hi, hrest⟩ := s.setI_advance (addressOf nnn)
    exact ⟨t, hnext, (congrArg BitVec.toNat hi).trans (addressOf_toNat nnn), hrest⟩
  case addIReg =>
    obtain ⟨t, hnext, hi, hrest⟩ := s.setI_advance (s.i + zext16 (s.reg x))
    have hsum : (s.i + zext16 (s.reg x)).toNat = (s.i.toNat + (s.reg x).toNat) % 65536 := by
      rw [BitVec.toNat_add, zext16_toNat]
    exact ⟨t, hnext, (congrArg BitVec.toNat hi).trans hsum, hrest⟩

end Sys2Proof.Machine


/-! Timers and the key wait (44_timers_keys.md R190 to R193): what writing a timer leaves unchanged, the answer of each
of the four instructions, and the statements about them. -/

namespace Sys2Proof.Machine

section
variable (s : State) (x : Reg)

/-! ## Writing a timer -/

theorem frameBut_dt (b : Byte) : FrameBut [.dt] s (s.setDT b) := by
  intro e he
  have hsame : SameElement e s s := SameElement.refl e s
  cases e with
  | dt => exact absurd (List.mem_singleton_self _) he
  | _ => exact hsame

theorem frameBut_st (b : Byte) : FrameBut [.st] s (s.setST b) := by
  intro e he
  have hsame : SameElement e s s := SameElement.refl e s
  cases e with
  | st => exact absurd (List.mem_singleton_self _) he
  | _ => exact hsame

theorem State.setDT_advance (b : Byte) :
    ∃ t, (s.setDT b).advance = .next t ∧ t.dt = b ∧ t.pc = s.pc + 2 ∧ FrameBut [.dt, .pc] s t :=
  ⟨_, State.advance_eq _, rfl, rfl, ((frameBut_dt s b).trans (frameBut_pc _ _)).mono (by decide)⟩

theorem State.setST_advance (b : Byte) :
    ∃ t, (s.setST b).advance = .next t ∧ t.st = b ∧ t.pc = s.pc + 2 ∧ FrameBut [.st, .pc] s t :=
  ⟨_, State.advance_eq _, rfl, rfl, ((frameBut_st s b).trans (frameBut_pc _ _)).mono (by decide)⟩

/-! ## The four instructions -/

theorem exec_setRegDelay : exec (.setRegDelay x) s = (s.setReg x s.dt).advance := rfl

theorem exec_setDelayReg : exec (.setDelayReg x) s = (s.setDT (s.reg x)).advance := rfl

theorem exec_setSoundReg : exec (.setSoundReg x) s = (s.setST (s.reg x)).advance := rfl

theorem exec_setRegKey_of_some {k : Nat} (h : s.lowestKey = some k) :
    exec (.setRegKey x) s = (s.setReg x (BitVec.ofNat 8 k)).advance := by
  simp only [exec, execSetRegKey, h]

/-- The rewind by 2 and the uniform advance by 2 cancel, so the wait is no change at all. -/
theorem exec_setRegKey_of_none (h : s.lowestKey = none) : exec (.setRegKey x) s = .next s := by
  simp only [exec, execSetRegKey, h, State.runAgain_eq]

end

/-! ## The statements -/

/-- Settles O43: the search for the least pressed key finds `k` or finds none; a wait answers the state it began in. -/
theorem keyWaitTakesTheLeastPressedKey : Obligations.KeyWaitTakesTheLeastPressedKey := by
  unfold Obligations.KeyWaitTakesTheLeastPressedKey
  refine fun s x => ⟨fun k hk hdown hleast => ?pressed, fun hup => ?waits⟩
  case pressed =>
    have hlowest : s.lowestKey = some k := (s.lowestKey_eq_some k).mpr ⟨hk, hdown, hleast⟩
    rw [exec_setRegKey_of_some s x hlowest]
    exact s.setReg_advance_writesRegister x _
  case waits =>
    have hnone : s.lowestKey = none := s.lowestKey_eq_none.mpr hup
    exact ⟨s, exec_setRegKey_of_none s x hnone, fun e _ => SameElement.refl e s⟩

/-- Settles O42: each move is one write, of a register or of a timer, and the advance. -/
theorem timerMovesCopyOneByte : Obligations.TimerMovesCopyOneByte := by
  unfold Obligations.TimerMovesCopyOneByte
  intro s x
  rw [exec_setRegDelay, exec_setDelayReg, exec_setSoundReg]
  refine ⟨?regDelay, ?delayReg, ?soundReg⟩
  case regDelay => exact s.setReg_advance_writesRegister x s.dt
  case delayReg => exact s.setDT_advance (s.reg x)
  case soundReg => exact s.setST_advance (s.reg x)

end Sys2Proof.Machine


/-! Display (45_display.md R201 to R205): the answers of Clear and Draw, what a whole sprite leaves in every pixel and
in the flag, and the statements about the display and the host's view of it. -/

namespace Sys2Proof.Machine

section
variable (s : State)

/-! ## Writing the display -/

@[simp] theorem pixelOf_darkPix (c : Fin 64) (r : Fin 32) : pixelOf darkPix c r = false := by
  rw [pixelOf, darkPix, Vector.getElem_replicate, BitVec.getLsbD_zero]

theorem frameBut_pix (p : Pix) : FrameBut [.pix] s (s.setPix p) := by
  intro e he
  have hsame : SameElement e s s := SameElement.refl e s
  cases e with
  | pix => exact absurd (List.mem_singleton_self _) he
  | _ => exact hsame

theorem exec_clear : exec .clear s = (s.setPix darkPix).advance := rfl

/-! ## A sprite (45_display.md R204, R205) -/

/-- The columns and rows of the display written out as numbers. -/
theorem bitHits_iff (ox oy bits : Byte) (row col : Nat) (c : Fin 64) (r : Fin 32) :
    bitHits ox oy bits row col c r = true ↔
      bits.getLsbD (7 - col) = true ∧ c.val = (ox.toNat + col) % 64 ∧ r.val = (oy.toNat + row) % 32 := by
  simp only [bitHits, columnAt, rowAt, Bool.and_eq_true, decide_eq_true_iff, Fin.ext_iff]

variable (x y : Reg)

section
variable (n : Nat)

/-- The drawing that the `n` sprite rows at I leave, drawn at (`V[x]`, `V[y]`): `exec_draw_of_fits`. -/
def State.drawSprite : Drawing :=
  drawRows (s.reg x) (s.reg y) 0 { pix := s.pix, collide := false } (s.bytesFrom s.indexBase n)

/-- Where the rows that Draw reads land, in the statements' terms. -/
theorem rowsHit_bytesFrom_iff (c : Fin 64) (r : Fin 32) :
    RowsHit (s.reg x) (s.reg y) 0 (s.bytesFrom s.indexBase n) c r ↔ spriteHits s x y n c r := by
  have hbyte : ∀ row < n, (s.bytesFrom s.indexBase n).getD row 0 = s.byteAt (s.i.toNat + row) := fun row hrow => by
    rw [List.getD_eq_getElem _ _ (by rwa [s.bytesFrom_length]), s.bytesFrom_getElem, State.indexBase]
  simp only [RowsHit, spriteHits, bitHits_iff, s.bytesFrom_length, Nat.zero_add]
  exact exists_congr fun row => and_congr_right fun hrow => by rw [hbyte row hrow]

/-- The rows of a sprite of at most 32 rows land on different rows of the display, so no pixel is toggled twice. -/
theorem State.drawSprite_spec (hn : n ≤ 32) :
    (∀ c r, (spriteHits s x y n c r → pixelOf (s.drawSprite x y n).pix c r = !s.pixel c r) ∧
      (¬ spriteHits s x y n c r → pixelOf (s.drawSprite x y n).pix c r = s.pixel c r)) ∧
    ((s.drawSprite x y n).collide = true ↔ ∃ c r, spriteHits s x y n c r ∧ s.pixel c r = true) := by
  have hlen : 0 + (s.bytesFrom s.indexBase n).length ≤ 32 := by rwa [s.bytesFrom_length, Nat.zero_add]
  obtain ⟨hpixel, hcollide⟩ := drawRows_spec (s.reg x) (s.reg y) _ 0 { pix := s.pix, collide := false } hlen
  simp only [rowsHit_bytesFrom_iff] at hpixel hcollide
  exact ⟨hpixel, hcollide.trans (or_iff_right Bool.false_ne_true)⟩

end

/-! ## Draw -/

variable (n : Fin 16)

theorem exec_draw_of_fits (h : n.val = 0 ∨ s.indexBase + n.val ≤ 0x1000) :
    exec (.draw x y n) s =
      ((s.setPix (s.drawSprite x y n.val).pix).setFlag (s.drawSprite x y n.val).collide).advance := by
  have hrows : readBytes s s.indexBase n.val = .ok (s.bytesFrom s.indexBase n.val) :=
    (readBytes_eq s _ _).trans (if_pos h.symm)
  simp only [exec, execDraw, hrows, State.drawSprite]

theorem exec_draw_of_above (hn : n.val ≠ 0) (h : s.indexBase + n.val > 0x1000) :
    exec (.draw x y n) s =
      .next (s.faulted .addressFault (encode (.draw x y n)) (BitVec.ofNat 16 (max s.indexBase 0x1000))) := by
  simp only [exec, execDraw, readBytes_eq_error s hn h, State.raiseAddress_eq]

/-- What an instruction that writes the display, then the flag, answers. -/
theorem State.setPix_setFlag_advance (p : Pix) (flag : Bool) :
    ∃ t, ((s.setPix p).setFlag flag).advance = .next t ∧ (∀ c r, t.pixel c r = pixelOf p c r) ∧
      t.reg VF = flagByte flag ∧ RegsBut [VF] s t ∧ t.pc = s.pc + 2 ∧ FrameBut [.v, .pix, .pc] s t := by
  have hregs : RegsBut [VF] s ((s.setPix p).setFlag flag) := regsBut_setReg _ (List.mem_singleton_self VF) _
  have hframe : FrameBut [.v, .pix] s ((s.setPix p).setFlag flag) := (frameBut_pix s p).trans (frameBut_v _ _)
  exact ⟨_, State.advance_eq _, fun _ _ => rfl, State.reg_setFlag_same _ flag, hregs, rfl,
    (hframe.trans (frameBut_pc _ _)).mono (by decide)⟩

end

/-! ## The statements -/

/-- Settles O45: Draw is the read of its rows, then the drawing of `State.drawSprite`, whose collision is the flag. -/
theorem drawTogglesTheSpritesPixels : Obligations.DrawTogglesTheSpritesPixels := by
  unfold Obligations.DrawTogglesTheSpritesPixels
  refine fun s x y n => ⟨fun hfits => ?draws, fun ⟨hrows, habove⟩ => ?faults⟩
  case draws =>
    obtain ⟨hdrawn, hcollide⟩ := s.drawSprite_spec x y n.val (by omega)
    rw [exec_draw_of_fits s x y n hfits]
    obtain ⟨t, hnext, hpixel, hVF, hframe⟩ :=
      s.setPix_setFlag_advance (s.drawSprite x y n.val).pix (s.drawSprite x y n.val).collide
    refine ⟨t, hnext, fun c r => ?_, fun hhit => ?_, fun hnone => ?_, hframe⟩
    · rw [hpixel]; exact hdrawn c r
    · rw [hVF, hcollide.mpr hhit]; rfl
    · rw [hVF, Bool.eq_false_iff.mpr (mt hcollide.mp hnone)]; rfl
  case faults => exact ⟨_, exec_draw_of_above s x y n hrows habove, faultsWith_faulted s _ _ _⟩

/-- Settles O44: Clear writes the dark display and advances. -/
theorem clearTurnsEveryPixelOff : Obligations.ClearTurnsEveryPixelOff := by
  unfold Obligations.ClearTurnsEveryPixelOff
  intro s
  rw [exec_clear]
  exact ⟨_, State.advance_eq _, pixelOf_darkPix, rfl, ((frameBut_pix s _).trans (frameBut_pc _ _)).mono (by decide)⟩

/-- Settles O47: byte 4 × (64 r + c) + k belongs to column c and row r. -/
theorem hostSeesFourBytesPerPixel : Obligations.HostSeesFourBytesPerPixel := by
  unfold Obligations.HostSeesFourBytesPerPixel
  intro s c r k j hj
  have hcol : j.val / 4 % 64 = c.val := by omega
  have hrow : j.val / 256 = r.val := by omega
  simp only [State.frameByte, hcol, hrow, Fin.eta]

end Sys2Proof.Machine


/-! TICK (60_exceptions.md R235, R236): what one count of a timer is, and the statement about the two timers. -/

namespace Sys2Proof.Machine

/-- R235: one count takes 1 from a timer that is not 0, and the byte subtraction does not wrap. -/
theorem countDown_toNat (b : Byte) : (countDown b).toNat = b.toNat - 1 := by
  by_cases hpos : b.toNat > 0
  · have hone : (1 : Byte) ≤ b := hpos
    rw [countDown, if_pos hpos, BitVec.toNat_sub_of_le hone]
    rfl
  · rw [countDown, if_neg hpos]
    omega

/-- TICK is a write of ST, then of DT. -/
theorem tickOp_eq (s : State) : tickOp s = (s.setST (countDown s.st)).setDT (countDown s.dt) := rfl

theorem frameBut_tickOp (s : State) : FrameBut [.dt, .st] s (tickOp s) := by
  rw [tickOp_eq]
  exact (frameBut_st s _).trans (frameBut_dt _ _)

/-- Settles O17: TICK is one count of each timer, and neither the phase nor `halted` is asked. -/
theorem tickDecrementsBothTimers : Obligations.TickDecrementsBothTimers := by
  unfold Obligations.TickDecrementsBothTimers
  exact fun s => ⟨tickOp s, rfl, countDown_toNat s.dt, countDown_toNat s.st, frameBut_tickOp s⟩

end Sys2Proof.Machine


/-! INIT (70_reset_and_hazards.md R250): the reset values it writes, what it leaves as it was, and the statement. -/

namespace Sys2Proof.Machine

/-- Every register is 0 after INIT. -/
@[simp] theorem initOp_reg (s : State) (r : Reg) : (initOp s).reg r = 0 :=
  Vector.getElem_replicate r.isLt

/-- INIT leaves no address listed, so every one reads as its reset contents, with the parameters of `s`. -/
@[simp] theorem initOp_byteAt (s : State) (a : Nat) : (initOp s).byteAt a = resetByte s.cfg a := rfl

/-- R250: INIT does not write PIX, and it leaves the inputs, the host's operations and the parameters too. -/
theorem frameBut_initOp (s : State) :
    FrameBut [.v, .i, .pc, .stack, .dt, .st, .mem, .halted, .fault, .phase, .freeCount] s (initOp s) := by
  intro e he
  cases e with
  | pix => exact fun _ _ => rfl
  | key | rnd | host | cfg => exact rfl
  | _ => exact absurd (by decide) he

/-- Settles O15: the reset values stand in `initOp`, and every other operation keeps a halted state halted (R104). -/
theorem initSetsEveryResetValue : Obligations.InitSetsEveryResetValue := by
  unfold Obligations.InitSetsEveryResetValue
  refine ⟨fun s => ?resets, fun s t op hhalted hnext hrunning => ?onlyWayOut⟩
  case resets =>
    have hfont : ∀ (d : Fin 16) (k : Fin 5), (initOp s).byteAt (5 * d.val + k.val) = s.cfg.font[d][k] :=
      fun d k => (initOp_byteAt s _).trans (resetByte_font s.cfg d k)
    have hmemInit : ∀ a, 0x50 ≤ a → a ≤ 0xFFF → (initOp s).byteAt a = (Memory.lookup s.cfg.memInit a).getD 0 :=
      fun a ha _ => (initOp_byteAt s a).trans (resetByte_above_font s.cfg ha)
    exact ⟨initOp s, rfl, initOp_reg s, rfl, rfl, rfl, rfl, rfl, hfont, hmemInit, rfl, rfl, frameBut_initOp s⟩
  case onlyWayOut =>
    obtain ⟨_, hstays⟩ := haltedStepChangesNothing s hhalted
    by_contra hop
    exact Bool.false_ne_true (hrunning.symm.trans (hstays op t hop hnext))

end Sys2Proof.Machine


/-! The decoder against the encoder (30_encoding.md R72 to R83): a word put together again from its fields, the words
that are a decode error, and the statements about encoding. -/

namespace Sys2Proof

/-! ## A word from its fields (30_encoding.md R71, R72) -/

section
variable {op : Word} {h n : BitVec 4} {nn : Byte}

theorem eq_wordNNN (hH : fieldH op = h) : op = wordNNN h (fieldNNN op) := by
  apply BitVec.eq_of_toNat_eq
  rw [wordNNN_toNat, ← hH, fieldH_toNat, fieldNNN_toNat]
  omega

theorem eq_wordXNN (hH : fieldH op = h) (hNN : fieldNN op = nn) : op = wordXNN h (fieldX op) nn := by
  apply BitVec.eq_of_toNat_eq
  rw [wordXNN_toNat, ← hH, ← hNN, fieldH_toNat, fieldX_val, fieldNN_toNat]
  omega

theorem eq_wordXYN (hH : fieldH op = h) (hN : fieldN op = n) : op = wordXYN h (fieldX op) (fieldY op) n := by
  apply BitVec.eq_of_toNat_eq
  rw [wordXYN_toNat, ← hH, ← hN, fieldH_toNat, fieldX_val, fieldY_val, fieldN_toNat]
  omega

/-! ## A word under a mask -/

@[simp] theorem and_FFFF (op : Word) : op &&& 0xFFFF#16 = op := BitVec.and_allOnes

/-- A mask cuts a word nibble by nibble. -/
theorem wordXYN_and (h n a b c d : BitVec 4) (x y : Reg) :
    wordXYN h x y n &&& (a ++ (b ++ (c ++ d))) = (h &&& a) ++ ((regBits x &&& b) ++ ((regBits y &&& c) ++ (n &&& d))) :=
  BitVec.and_append.trans (congrArg (_ ++ ·) (BitVec.and_append.trans (congrArg (_ ++ ·) BitVec.and_append)))

theorem nibble_and_F (a : BitVec 4) : a &&& 0xF#4 = a := BitVec.and_allOnes

/-- Without `op[3:0]`. -/
theorem and_FFF0 (hH : fieldH op = h) : op &&& 0xFFF0#16 = wordXYN h (fieldX op) (fieldY op) 0x0#4 := by
  have hmask : 0xFFF0#16 = 0xF#4 ++ (0xF#4 ++ (0xF#4 ++ 0x0#4)) := rfl
  conv_lhs => rw [eq_wordXYN hH rfl, hmask, wordXYN_and]
  simp only [nibble_and_F, BitVec.and_zero, wordXYN]

/-- Without the field y. -/
theorem and_FF0F (hH : fieldH op = h) (hN : fieldN op = n) : op &&& 0xFF0F#16 = wordXYN h (fieldX op) 0 n := by
  have hmask : 0xFF0F#16 = 0xF#4 ++ (0xF#4 ++ (0x0#4 ++ 0xF#4)) := rfl
  conv_lhs => rw [eq_wordXYN hH hN, hmask, wordXYN_and]
  simp only [nibble_and_F, BitVec.and_zero, wordXYN]
  rfl

end

/-! ## Decoding an encoded word -/

/-- The operands that 30_encoding.md R76 leaves NoOp. -/
theorem noOpOperand_iff (nnn : BitVec 12) : noOpOperand nnn = true ↔ nnn ≠ 0x0E0#12 ∧ nnn ≠ 0x0EE#12 := by
  simp only [noOpOperand, Bool.and_eq_true, bne_iff_ne]

theorem decode_wordNNN_zero {nnn : BitVec 12} (hnoOp : noOpOperand nnn = true) :
    decode (wordNNN 0x0#4 nnn) = .ok (.noOp nnn) := by
  obtain ⟨hclear, hret⟩ := (noOpOperand_iff nnn).mp hnoOp
  have hfield : fieldNNN (wordNNN 0x0#4 nnn) = nnn := fieldNNN_wordNNN _ _
  have hnotClear : wordNNN 0x0#4 nnn ≠ 0x00E0#16 := fun h => hclear (hfield.symm.trans (congrArg fieldNNN h))
  have hnotRet : wordNNN 0x0#4 nnn ≠ 0x00EE#16 := fun h => hret (hfield.symm.trans (congrArg fieldNNN h))
  simp only [decode, fieldH_wordNNN, decodeFamily0, if_neg hnotClear, if_neg hnotRet, hfield]

theorem decode_of_familyF {op : Word} (hH : fieldH op = 0xF#4) : decode op = decodeFamilyF op := by
  rw [decode, hH]
  rfl

/-- Settles O1: the decoder reads every field of an encoded word back, and only NoOp could be taken for another
instruction, Clear or Ret. -/
theorem decodeOfEncodeIsTheInstruction : Obligations.DecodeOfEncodeIsTheInstruction := by
  unfold Obligations.DecodeOfEncodeIsTheInstruction
  intro i hwf
  cases i with
  | clear | ret => rfl
  | noOp nnn => exact decode_wordNNN_zero hwf
  | jump | call | setI | jumpOffset => simp only [encode, decode, fieldH_wordNNN, fieldNNN_wordNNN]
  | skipEqRegVal | skipNeqRegVal | setRegVal | addRegVal | setRegRand =>
    simp only [encode, decode, fieldH_wordXNN, fieldX_wordXNN, fieldNN_wordXNN]
  | skipEqRegReg | skipNeqRegReg | draw =>
    simp only [encode, decode, fieldH_wordXYN, fieldX_wordXYN, fieldY_wordXYN, fieldN_wordXYN]
  | setRegReg | orRegReg | andRegReg | xorRegReg | addRegReg | subRegReg | shiftRight | subReverseRegReg | shiftLeft =>
    simp only [encode, decode, decodeFamily8, fieldH_wordXYN, fieldX_wordXYN, fieldY_wordXYN, fieldN_wordXYN]
  | skipKeyPressed | skipKeyNotPressed =>
    simp only [encode, decode, decodeFamilyE, fieldH_wordXNN, fieldX_wordXNN, fieldNN_wordXNN]
  | setRegDelay | setRegKey | setDelayReg | setSoundReg | addIReg | setISpriteReg | bcd | dump | load =>
    exact (decode_of_familyF (fieldH_wordXNN _ _ _)).trans
      (by simp only [decodeFamilyF, fieldX_wordXNN, fieldNN_wordXNN])

/-- Settles O6: the word of each format as a number, with the fixed digits of each instruction. -/
theorem encodedWordsFollowTheFormats : Obligations.EncodedWordsFollowTheFormats := by
  unfold Obligations.EncodedWordsFollowTheFormats
  intro x y n nn nnn
  simp only [encode, wordNNN_toNat, wordXNN_toNat, wordXYN_toNat, BitVec.toNat_ofNat, BitVec.toNat_ofFin,
    true_and]
  and_intros <;> omega

/-! ## What a decoded word is -/

/-- The instruction is well-formed, and its encoding is the word, the ignored fields cleared (30_encoding.md R83). -/
def EncodesKept (op : Word) (i : Instr) : Prop := i.wellFormed = true ∧ op &&& keptBits i = encode i

section
variable {op : Word} {i : Instr}

theorem decodeFamily0_encodesKept (hH : fieldH op = 0x0#4) : EncodesKept op (decodeFamily0 op) := by
  unfold decodeFamily0
  split
  next hclear => subst hclear; exact ⟨rfl, rfl⟩
  split
  next hret => subst hret; exact ⟨rfl, rfl⟩
  next hclear hret =>
    have hword : op = wordNNN 0x0#4 (fieldNNN op) := eq_wordNNN hH
    have hoperand : ∀ nnn, op ≠ wordNNN 0x0#4 nnn → fieldNNN op ≠ nnn := fun nnn hne heq => hne (heq ▸ hword)
    exact ⟨(noOpOperand_iff _).mpr ⟨hoperand 0x0E0#12 hclear, hoperand 0x0EE#12 hret⟩, (and_FFFF op).trans hword⟩

theorem decodeFamily8_encodesKept (hH : fieldH op = 0x8#4) (hi : decodeFamily8 op = .ok i) : EncodesKept op i := by
  unfold decodeFamily8 at hi
  split at hi <;> cases hi
  case h_7 hN | h_9 hN => exact ⟨rfl, and_FF0F hH hN⟩
  all_goals next hN => exact ⟨rfl, (and_FFFF op).trans (eq_wordXYN hH hN)⟩

theorem decodeFamilyE_encodesKept (hH : fieldH op = 0xE#4) (hi : decodeFamilyE op = .ok i) : EncodesKept op i := by
  unfold decodeFamilyE at hi
  split at hi <;> cases hi
  all_goals next hNN => exact ⟨rfl, (and_FFFF op).trans (eq_wordXNN hH hNN)⟩

theorem decodeFamilyF_encodesKept (hH : fieldH op = 0xF#4) (hi : decodeFamilyF op = .ok i) : EncodesKept op i := by
  unfold decodeFamilyF at hi
  split at hi <;> cases hi
  all_goals next hNN => exact ⟨rfl, (and_FFFF op).trans (eq_wordXNN hH hNN)⟩

/-- The three families that look at a selector, and the rest, in which every word is an instruction (30_encoding.md
R75). -/
theorem decode_cases (op : Word) :
    (fieldH op = 0x8#4 ∧ decode op = decodeFamily8 op) ∨ (fieldH op = 0xE#4 ∧ decode op = decodeFamilyE op) ∨
    (fieldH op = 0xF#4 ∧ decode op = decodeFamilyF op) ∨
    (fieldH op ∉ [0x8#4, 0xE#4, 0xF#4] ∧ ∃ i, decode op = .ok i ∧ EncodesKept op i) := by
  unfold decode
  split
  case h_9 hH => exact .inl ⟨hH, rfl⟩
  case h_15 hH => exact .inr (.inl ⟨hH, rfl⟩)
  case h_16 =>
    have hH : fieldH op = 0xF#4 := by
      generalize fieldH op = h at *
      revert h
      decide
    exact .inr (.inr (.inl ⟨hH, rfl⟩))
  all_goals
    rename_i hH
    refine .inr (.inr (.inr ⟨by rw [hH]; decide, _, rfl, ?_⟩))
  case h_1 => exact decodeFamily0_encodesKept hH
  case h_6 | h_10 => exact ⟨rfl, and_FFF0 hH⟩
  case h_2 | h_3 | h_11 | h_12 => exact ⟨rfl, (and_FFFF op).trans (eq_wordNNN hH)⟩
  case h_14 => exact ⟨rfl, (and_FFFF op).trans (eq_wordXYN hH rfl)⟩
  all_goals exact ⟨rfl, (and_FFFF op).trans (eq_wordXNN hH rfl)⟩

theorem decode_encodesKept (hi : decode op = .ok i) : EncodesKept op i := by
  obtain ⟨hH, hdecode⟩ | ⟨hH, hdecode⟩ | ⟨hH, hdecode⟩ | ⟨_, j, hdecode, hkept⟩ := decode_cases op
  · exact decodeFamily8_encodesKept hH (hdecode.symm.trans hi)
  · exact decodeFamilyE_encodesKept hH (hdecode.symm.trans hi)
  · exact decodeFamilyF_encodesKept hH (hdecode.symm.trans hi)
  · cases hdecode.symm.trans hi
    exact hkept

end

/-- Settles O2: each arm of the decoder takes its operands from the fields that the encoder writes. -/
theorem legalWordKeepsEveryBitNotIgnored : Obligations.LegalWordKeepsEveryBitNotIgnored := by
  unfold Obligations.LegalWordKeepsEveryBitNotIgnored
  exact fun op i hi => decode_encodesKept hi

/-! ## Illegal words (30_encoding.md R77 to R79, R81) -/

/-- `op[3:0]` of the legal words of family 0x8. -/
def selectors8 : List (BitVec 4) := [0x0, 0x1, 0x2, 0x3, 0x4, 0x5, 0x6, 0x7, 0xE]

/-- `op[7:0]` of the legal words of family 0xE. -/
def selectorsE : List Byte := [0x9E, 0xA1]

/-- `op[7:0]` of the legal words of family 0xF. -/
def selectorsF : List Byte := [0x07, 0x0A, 0x15, 0x18, 0x1E, 0x29, 0x33, 0x55, 0x65]

section
variable (op : Word) (e : DecodeError)

theorem decodeFamily8_eq_error_iff :
    decodeFamily8 op = .error e ↔ e = .illegal op ∧ fieldN op ∉ selectors8 := by
  unfold decodeFamily8 selectors8
  split <;> simp_all [eq_comm]

theorem decodeFamilyE_eq_error_iff :
    decodeFamilyE op = .error e ↔ e = .illegal op ∧ fieldNN op ∉ selectorsE := by
  unfold decodeFamilyE selectorsE
  split <;> simp_all [eq_comm]

theorem decodeFamilyF_eq_error_iff :
    decodeFamilyF op = .error e ↔ e = .illegal op ∧ fieldNN op ∉ selectorsF := by
  unfold decodeFamilyF selectorsF
  split <;> simp_all [eq_comm]

/-- The word has a selector that its family does not know (30_encoding.md R81). -/
def IllegalFields (op : Word) : Prop :=
  (fieldH op = 0x8#4 ∧ fieldN op ∉ selectors8) ∨ (fieldH op = 0xE#4 ∧ fieldNN op ∉ selectorsE) ∨
  (fieldH op = 0xF#4 ∧ fieldNN op ∉ selectorsF)

theorem decode_eq_error_iff : decode op = .error e ↔ e = .illegal op ∧ IllegalFields op := by
  unfold IllegalFields
  obtain ⟨hH, hdecode⟩ | ⟨hH, hdecode⟩ | ⟨hH, hdecode⟩ | ⟨hH, i, hdecode, _⟩ := decode_cases op
  · simp [hdecode, decodeFamily8_eq_error_iff, hH]
  · simp [hdecode, decodeFamilyE_eq_error_iff, hH]
  · simp [hdecode, decodeFamilyF_eq_error_iff, hH]
  · simp_all

/-! ## The illegal patterns as numbers -/

theorem fieldH_eq_iff (h : BitVec 4) : fieldH op = h ↔ op.toNat / 4096 = h.toNat := by
  rw [← fieldH_toNat, BitVec.toNat_inj]

/-- The nine selectors of family 0x8 leave seven values of `op[3:0]`. -/
theorem fieldN_notMem_selectors8_iff :
    fieldN op ∉ selectors8 ↔ op.toNat % 16 ∈ [0x8, 0x9, 0xA, 0xB, 0xC, 0xD, 0xF] := by
  rw [← fieldN_toNat]
  generalize fieldN op = n
  revert n
  decide

theorem fieldNN_mem_iff (l : List Byte) : fieldNN op ∈ l ↔ op.toNat % 256 ∈ l.map BitVec.toNat := by
  rw [← fieldNN_toNat, List.mem_map_of_injective fun _ _ => BitVec.eq_of_toNat_eq]

theorem illegalFields_iff : IllegalFields op ↔
    (op.toNat / 4096 = 0x8 ∧ op.toNat % 16 ∈ [0x8, 0x9, 0xA, 0xB, 0xC, 0xD, 0xF]) ∨
    (op.toNat / 4096 = 0xE ∧ op.toNat % 256 ∉ [0x9E, 0xA1]) ∨
    (op.toNat / 4096 = 0xF ∧ op.toNat % 256 ∉ [0x07, 0x0A, 0x15, 0x18, 0x1E, 0x29, 0x33, 0x55, 0x65]) := by
  rw [IllegalFields, fieldN_notMem_selectors8_iff, fieldNN_mem_iff, fieldNN_mem_iff, fieldH_eq_iff, fieldH_eq_iff,
    fieldH_eq_iff]
  rfl

end

/-- Settles O3: the selectors that a family does not know, written as numbers. -/
theorem illegalEncodingsAreExactlyThreePatterns : Obligations.IllegalEncodingsAreExactlyThreePatterns := by
  unfold Obligations.IllegalEncodingsAreExactlyThreePatterns
  refine fun op => ⟨?patterns, fun e he => ((decode_eq_error_iff op e).mp he).1⟩
  case patterns => rw [decode_eq_error_iff, illegalFields_iff, and_iff_right rfl]

/-- Settles O7: the decoder evaluated on the nine words. -/
theorem writtenOutWordsDecode : Obligations.WrittenOutWordsDecode := by
  unfold Obligations.WrittenOutWordsDecode
  decide

end Sys2Proof


/-! The opcode table (30_encoding.md R86) against the decoder: its rows exclude each other, an instruction's own row
selects every word that decodes to it, and a row selects legal words only. -/

namespace Sys2Proof

section
variable {row row' : TableRow} {op : Word}

theorem TableRow.selects_iff :
    row.selects op = true ↔ op &&& row.mask = row.pattern ∧ op ∉ row.excludes := by
  simp only [TableRow.selects, Bool.and_eq_true, beq_iff_eq, Bool.not_eq_true', List.contains_eq_mem,
    decide_eq_false_iff_not]

/-! ## No word is selected by two rows -/

/-- The rows differ in a bit that both fix, or the first one's only word is excluded from the second. -/
def TableRow.Apart (row row' : TableRow) : Prop :=
  row.pattern &&& row'.mask ≠ row'.pattern &&& row.mask ∨
  (row.mask = 0xFFFF#16 ∧ row.pattern ∈ row'.excludes)

theorem opcodeTable_apart : opcodeTable.Pairwise TableRow.Apart := by
  unfold TableRow.Apart
  decide

theorem TableRow.Apart.not_selects_both (hapart : row.Apart row') :
    ¬ (row.selects op = true ∧ row'.selects op = true) := by
  rintro ⟨hrow, hrow'⟩
  obtain ⟨hpattern, _⟩ := TableRow.selects_iff.mp hrow
  obtain ⟨hpattern', hallowed⟩ := TableRow.selects_iff.mp hrow'
  obtain hbit | ⟨hmask, hexcluded⟩ := hapart
  · refine hbit ?_
    rw [← hpattern, ← hpattern', BitVec.and_assoc, BitVec.and_assoc, BitVec.and_comm row.mask]
  · rw [hmask, and_FFFF] at hpattern
    exact hallowed (hpattern ▸ hexcluded)

theorem opcodeTable_exclusive (op : Word) :
    opcodeTable.Pairwise fun row row' => ¬ (row.selects op = true ∧ row'.selects op = true) :=
  opcodeTable_apart.imp TableRow.Apart.not_selects_both

/-- At most one row selects the word. -/
theorem selected_length_le_one (op : Word) : (opcodeTable.filter (·.selects op)).length ≤ 1 := by
  have hexclusive := (opcodeTable_exclusive op).filter (·.selects op)
  have hselect : ∀ row ∈ opcodeTable.filter (·.selects op), row.selects op = true := fun _ h =>
    (List.mem_filter.mp h).2
  generalize opcodeTable.filter (·.selects op) = rows at hexclusive hselect ⊢
  match rows with
  | [] | [_] => simp
  | row :: row' :: _ =>
    exact absurd ⟨hselect row (by simp), hselect row' (by simp)⟩ (List.rel_of_pairwise_cons hexclusive (by simp))

/-- So the row that selects the word is the one that the search finds. -/
theorem tableMnemonic_of_selects (hmem : row ∈ opcodeTable) (hselects : row.selects op = true) :
    tableMnemonic op = some row.mnemonic := by
  obtain ⟨found, hfound⟩ := Option.isSome_iff_exists.mp (List.find?_isSome (p := (·.selects op)) |>.mpr ⟨row, hmem, hselects⟩)
  have hsymm : Std.Symm fun row row' : TableRow => ¬ (row.selects op = true ∧ row'.selects op = true) :=
    ⟨fun _ _ h h' => h h'.symm⟩
  have hfoundSelects : found.selects op = true := List.find?_some (p := fun row => TableRow.selects row op) hfound
  have hsame : found = row := by
    by_contra hne
    exact (opcodeTable_exclusive op).forall (List.mem_of_find?_eq_some hfound) hmem hne
      ⟨hfoundSelects, hselects⟩
  rw [tableMnemonic, hfound, hsame, Option.map_some]

end

/-! ## An instruction's own row -/

/-- The bits of the word that the instruction's row fixes. -/
def Instr.fixedBits : Instr → Word
  | .clear | .ret => 0xFFFF#16
  | .setRegReg _ _ | .orRegReg _ _ | .andRegReg _ _ | .xorRegReg _ _ | .addRegReg _ _ => 0xF00F#16
  | .subRegReg _ _ | .shiftRight _ | .subReverseRegReg _ _ | .shiftLeft _ => 0xF00F#16
  | .skipKeyPressed _ | .skipKeyNotPressed _ => 0xF0FF#16
  | .setRegDelay _ | .setRegKey _ | .setDelayReg _ | .setSoundReg _ => 0xF0FF#16
  | .addIReg _ | .setISpriteReg _ | .bcd _ | .dump _ | .load _ => 0xF0FF#16
  | _ => 0xF000#16

/-- The instruction's row of the opcode table: `Instr.row_mem`. -/
def Instr.row (i : Instr) : TableRow where
  mnemonic := i.mnemonic
  pattern  := encode i &&& i.fixedBits
  mask     := i.fixedBits
  excludes := match i with
    | .noOp _ => [0x00E0#16, 0x00EE#16]
    | _ => []

section
variable (h n : BitVec 4) (x y : Reg) (nn : Byte) (nnn : BitVec 12)

theorem wordNNN_and_F000 : wordNNN h nnn &&& 0xF000#16 = wordNNN h 0 := by
  have hmask : 0xF000#16 = 0xF#4 ++ 0#12 := rfl
  rw [hmask]
  exact BitVec.and_append.trans (congrArg₂ (· ++ ·) (nibble_and_F h) BitVec.and_zero)

theorem wordXNN_and_F000 : wordXNN h x nn &&& 0xF000#16 = wordNNN h 0 := wordNNN_and_F000 h _

theorem wordXYN_and_F000 : wordXYN h x y n &&& 0xF000#16 = wordNNN h 0 := wordNNN_and_F000 h _

theorem wordXYN_and_F00F : wordXYN h x y n &&& 0xF00F#16 = wordXYN h 0 0 n := by
  have hmask : 0xF00F#16 = 0xF#4 ++ (0x0#4 ++ (0x0#4 ++ 0xF#4)) := rfl
  rw [hmask, wordXYN_and]
  simp only [nibble_and_F, BitVec.and_zero]
  rfl

theorem wordXNN_and_F0FF : wordXNN h x nn &&& 0xF0FF#16 = wordXNN h 0 nn := by
  have hmask : 0xF0FF#16 = 0xF#4 ++ (0x0#4 ++ 0xFF#8) := rfl
  have hlow : nn &&& 0xFF#8 = nn := BitVec.and_allOnes
  rw [hmask]
  refine BitVec.and_append.trans (congrArg₂ (· ++ ·) (nibble_and_F h) (BitVec.and_append.trans ?_))
  rw [hlow, BitVec.and_zero]
  rfl

end

theorem Instr.row_mem (i : Instr) : i.row ∈ opcodeTable := by
  cases i <;>
    simp only [Instr.row, Instr.fixedBits, Instr.mnemonic, encode, and_FFFF, wordNNN_and_F000, wordXNN_and_F000,
      wordXYN_and_F000, wordXYN_and_F00F, wordXNN_and_F0FF] <;>
    decide

/-- No row fixes a bit that its instruction ignores (30_encoding.md R83). -/
theorem keptBits_and_fixedBits (i : Instr) : keptBits i &&& i.fixedBits = i.fixedBits := by
  cases i <;> simp only [keptBits, Instr.fixedBits] <;> decide

theorem Instr.row_selects {op : Word} {i : Instr} (hi : decode op = .ok i) : i.row.selects op = true := by
  obtain ⟨hwf, hkept⟩ := decode_encodesKept hi
  refine TableRow.selects_iff.mpr ⟨?pattern, ?allowed⟩
  case pattern =>
    show op &&& i.fixedBits = encode i &&& i.fixedBits
    rw [← hkept, BitVec.and_assoc, keptBits_and_fixedBits]
  case allowed =>
    cases i with
    | noOp nnn =>
      obtain ⟨hclear, hret⟩ := (noOpOperand_iff nnn).mp hwf
      have hword : op = wordNNN 0x0#4 nnn := (and_FFFF op).symm.trans hkept
      have hfield : fieldNNN op = nnn := hword ▸ fieldNNN_wordNNN _ _
      simp only [Instr.row, List.mem_cons, List.not_mem_nil, or_false, not_or]
      exact ⟨fun heq => hclear (hfield ▸ heq ▸ rfl), fun heq => hret (hfield ▸ heq ▸ rfl)⟩
    | _ => exact List.not_mem_nil

/-! ## A row selects legal words only -/

section
variable {row : TableRow} {op : Word}

theorem TableRow.field_of_selects (hselects : row.selects op = true) (start len : Nat) :
    op.extractLsb' start len &&& row.mask.extractLsb' start len = row.pattern.extractLsb' start len := by
  obtain ⟨hpattern, _⟩ := TableRow.selects_iff.mp hselects
  rw [← hpattern, BitVec.extractLsb'_and]

theorem TableRow.not_illegalFields (hmem : row ∈ opcodeTable) (hselects : row.selects op = true) :
    ¬ IllegalFields op := by
  have hH : fieldH op &&& fieldH row.mask = fieldH row.pattern := row.field_of_selects hselects 12 4
  have hN : fieldN op &&& fieldN row.mask = fieldN row.pattern := row.field_of_selects hselects 0 4
  have hNN : fieldNN op &&& fieldNN row.mask = fieldNN row.pattern := row.field_of_selects hselects 0 8
  have h8 : ∀ row ∈ opcodeTable, 0x8#4 &&& fieldH row.mask = fieldH row.pattern →
      fieldN row.mask = 0xF#4 ∧ fieldN row.pattern ∈ selectors8 := by decide
  have hE : ∀ row ∈ opcodeTable, 0xE#4 &&& fieldH row.mask = fieldH row.pattern →
      fieldNN row.mask = 0xFF#8 ∧ fieldNN row.pattern ∈ selectorsE := by decide
  have hF : ∀ row ∈ opcodeTable, 0xF#4 &&& fieldH row.mask = fieldH row.pattern →
      fieldNN row.mask = 0xFF#8 ∧ fieldNN row.pattern ∈ selectorsF := by decide
  rintro (⟨hfamily, hnot⟩ | ⟨hfamily, hnot⟩ | ⟨hfamily, hnot⟩) <;> rw [hfamily] at hH
  · obtain ⟨hmask, hlegal⟩ := h8 row hmem hH
    rw [hmask, nibble_and_F] at hN
    exact hnot (hN ▸ hlegal)
  · obtain ⟨hmask, hlegal⟩ := hE row hmem hH
    rw [hmask] at hNN
    exact hnot ((BitVec.and_allOnes.symm.trans hNN) ▸ hlegal)
  · obtain ⟨hmask, hlegal⟩ := hF row hmem hH
    rw [hmask] at hNN
    exact hnot ((BitVec.and_allOnes.symm.trans hNN) ▸ hlegal)

end

/-- Settles O5: an instruction's own row selects its words, no row selects an illegal word, and the rows exclude each
other. -/
theorem decoderFollowsTheOpcodeTable : Obligations.DecoderFollowsTheOpcodeTable := by
  unfold Obligations.DecoderFollowsTheOpcodeTable
  refine fun op => ⟨fun i hi => ?legal, fun e he => ?illegal, selected_length_le_one op⟩
  case legal => exact tableMnemonic_of_selects i.row_mem (Instr.row_selects hi)
  case illegal =>
    obtain ⟨_, hillegal⟩ := (decode_eq_error_iff op e).mp he
    rw [tableMnemonic, Option.map_eq_none_iff, List.find?_eq_none]
    exact fun row hmem hselects => TableRow.not_illegalFields hmem hselects hillegal

end Sys2Proof


/-! What an instruction does (40_control_flow.md R102, R103; 60_exceptions.md R222, R224): either its own check raises a
fault, or it writes what its rule names and sets the pc. The rules of the whole machine rest on this alone. -/

namespace Sys2Proof.Machine

/-! ## Where no fault is raised -/

/-- The state with everything written that the instruction writes but the pc. -/
def written (i : Instr) (s : State) : State :=
  match i with
  | .clear => s.setPix darkPix
  | .ret => s.pop
  | .call _ => s.push (s.pc + 2)
  | .setRegVal x nn => s.setReg x nn
  | .addRegVal x nn => s.setReg x (s.reg x + nn)
  | .setRegReg x y => s.setReg x (s.reg y)
  | .orRegReg x y => s.setReg x (s.reg x ||| s.reg y)
  | .andRegReg x y => s.setReg x (s.reg x &&& s.reg y)
  | .xorRegReg x y => s.setReg x (s.reg x ^^^ s.reg y)
  | .addRegReg x y => s.setResultThenFlag x (s.reg x + s.reg y) (carry (s.reg x) (s.reg y))
  | .subRegReg x y => s.setResultThenFlag x (s.reg x - s.reg y) (noBorrow (s.reg x) (s.reg y))
  | .shiftRight x => s.setFlagThenShift x (lowBit (s.reg x)) false
  | .subReverseRegReg x y => s.setResultThenFlag x (s.reg y - s.reg x) (noBorrow (s.reg y) (s.reg x))
  | .shiftLeft x => s.setFlagThenShift x (highBit (s.reg x)) true
  | .setI nnn => s.setI (addressOf nnn)
  | .setRegRand x nn => (s.setReg x (s.random &&& nn)).nextFree
  | .draw x y n => (s.setPix (s.drawSprite x y n.val).pix).setFlag (s.drawSprite x y n.val).collide
  | .setRegDelay x => s.setReg x s.dt
  | .setRegKey x => s.setReg x ((s.lowestKey.map (BitVec.ofNat 8)).getD (s.reg x))
  | .setDelayReg x => s.setDT (s.reg x)
  | .setSoundReg x => s.setST (s.reg x)
  | .addIReg x => s.setI (s.i + zext16 (s.reg x))
  | .setISpriteReg x => s.setI (5 * zext16 (s.reg x))
  | .bcd x => s.storeBytes s.indexBase (bcdDigits (s.reg x))
  | .dump x => s.storeBytes s.indexBase (s.regsUpTo x)
  | .load x => s.setRegs (setRegsFrom s.v 0 (s.bytesFrom s.indexBase (x.val + 1)))
  | .noOp _ | .jump _ | .jumpOffset _ => s
  | .skipEqRegVal _ _ | .skipNeqRegVal _ _ | .skipEqRegReg _ _ | .skipNeqRegReg _ _ => s
  | .skipKeyPressed _ | .skipKeyNotPressed _ => s

/-- The pc of a skip (41_skips.md R120). -/
def State.skipPc (s : State) (taken : Bool) : Word := if taken then s.pc + 4 else s.pc + 2

/-- The pc that the instruction sets: `pc + 2` for all but the transfers of control and the key wait. -/
def targetPc (i : Instr) (s : State) : Word :=
  match i with
  | .jump nnn | .call nnn => addressOf nnn
  | .jumpOffset nnn => addressOf nnn + zext16 (s.reg 0)
  | .ret => s.stack.getLast?.getD 0
  | .skipEqRegVal x nn => s.skipPc (s.reg x == nn)
  | .skipNeqRegVal x nn => s.skipPc (s.reg x != nn)
  | .skipEqRegReg x y => s.skipPc (s.reg x == s.reg y)
  | .skipNeqRegReg x y => s.skipPc (s.reg x != s.reg y)
  | .skipKeyPressed x => s.skipPc (s.keyDown (s.reg x).toNat == true)
  | .skipKeyNotPressed x => s.skipPc (s.keyDown (s.reg x).toNat == false)
  | .setRegKey _ => if s.lowestKey.isSome then s.pc + 2 else s.pc
  | _ => s.pc + 2

/-- The state that the instruction leaves where it raises no fault: `exec_of_ownFault_eq_none`. -/
def effect (i : Instr) (s : State) : State := { written i s with pc := targetPc i s }

/-- The state in which a fault with record `f` leaves the block: `exec_of_ownFault_eq_some`. -/
def State.raised (s : State) (f : FaultRecord) : State := { s with halted := true, fault := f }

theorem faultsWith_raised (s : State) (f : FaultRecord) : FaultsWith f s (s.raised f) := by
  refine ⟨rfl, rfl, fun e he => ?_⟩
  have hsame : SameElement e s s := SameElement.refl e s
  cases e with
  | halted | fault => exact absurd (by decide) he
  | _ => exact hsame

/-! ## The instructions that check something -/

/-- Writing a register's own value back changes nothing. -/
theorem State.setReg_reg_self (s : State) (x : Reg) : s.setReg x (s.reg x) = s := by
  simp only [State.setReg, State.reg, Vector.set_getElem_self]

section
variable {pc op : Word} {base n : Nat} {f : FaultRecord}

theorem spanFault_eq_none_iff : spanFault pc op base n = none ↔ base + n ≤ 0x1000 ∨ n = 0 := by
  unfold spanFault
  split <;> simp <;> omega

theorem spanFault_eq_some_iff : spanFault pc op base n = some f ↔ 0x1000 < base + n ∧ n ≠ 0 ∧
    f = { code := .addressFault, pc := pc, opcode := op, info := BitVec.ofNat 16 (max base 0x1000) } := by
  unfold spanFault
  split
  next h => simp [h, Nat.pos_iff_ne_zero.mp h.2, eq_comm]
  next h => simp; omega

end

section
variable {s t : State} {i : Instr} {op : Word}

/-- No check fails: the instruction's whole effect is what it writes, and the pc. -/
theorem exec_of_ownFault_eq_none (hcheck : ownFault op i s = none) : exec i s = .next (effect i s) := by
  cases i with
  | jump | jumpOffset => exact s.jumpTo_eq _
  | skipEqRegVal | skipNeqRegVal | skipEqRegReg | skipNeqRegReg => exact s.skipIf_eq _
  | call nnn =>
    have hroom : s.cfg.stackLimit ≠ some s.stack.length := by simpa [ownFault] using hcheck
    exact exec_call_of_not_full s nnn hroom
  | ret =>
    have hsome : s.stack ≠ [] := by simpa [ownFault] using hcheck
    have hstack : s.stack = s.stack.dropLast ++ [s.stack.getLast hsome] := (List.dropLast_concat_getLast hsome).symm
    rw [exec_ret_of_append hstack, effect, targetPc, List.getLast?_eq_some_getLast hsome]
    rfl
  | skipKeyPressed x | skipKeyNotPressed x =>
    have hkey : (s.reg x).toNat ≤ 0xF := by simpa [ownFault] using hcheck
    exact (skipOnKey_eq s _ _ _).trans (if_pos hkey)
  | setRegKey x =>
    cases hkey : s.lowestKey with
    | some k =>
      rw [exec_setRegKey_of_some s x hkey]
      simp only [effect, written, targetPc, hkey]
      rfl
    | none =>
      rw [exec_setRegKey_of_none s x hkey]
      simp only [effect, written, targetPc, hkey, Option.map_none, Option.getD_none, State.setReg_reg_self]
      rfl
  | draw x y n =>
    have hfits := spanFault_eq_none_iff.mp hcheck
    exact (exec_draw_of_fits s x y n hfits.symm).trans (State.advance_eq _)
  | bcd x =>
    have hfits := spanFault_eq_none_iff.mp hcheck
    exact (storeAtIndex_eq s _ _).trans (if_pos (.inl (hfits.resolve_right (by decide))))
  | dump x =>
    have hfits := spanFault_eq_none_iff.mp hcheck
    exact (storeAtIndex_eq s _ _).trans (if_pos (.inl (s.regsUpTo_length x ▸ hfits.resolve_right (Nat.succ_ne_zero _))))
  | load x =>
    have hfits := (spanFault_eq_none_iff.mp hcheck).resolve_right (Nat.succ_ne_zero _)
    exact (exec_load_of_fits s x (Nat.le_of_succ_le_succ hfits)).trans (State.advance_eq _)
  | _ => rfl

/-- The check fails: the fault it names, and nothing else. -/
theorem exec_of_ownFault_eq_some {f : FaultRecord} (hcheck : ownFault (encode i) i s = some f) :
    exec i s = .next (s.raised f) := by
  cases i with
  | call nnn =>
    obtain ⟨hfull, rfl⟩ : s.cfg.stackLimit = some s.stack.length ∧ _ = f := by simpa [ownFault] using hcheck
    exact exec_call_of_full s nnn hfull
  | ret =>
    obtain ⟨hempty, rfl⟩ : s.stack = [] ∧ _ = f := by simpa [ownFault] using hcheck
    exact exec_ret_of_nil hempty
  | skipKeyPressed x | skipKeyNotPressed x =>
    obtain ⟨habove, rfl⟩ : (s.reg x).toNat > 0xF ∧ _ = f := by simpa [ownFault] using hcheck
    exact (skipOnKey_eq s _ _ _).trans (if_neg (Nat.not_le.mpr habove))
  | draw x y n =>
    obtain ⟨habove, hrows, rfl⟩ := spanFault_eq_some_iff.mp hcheck
    exact exec_draw_of_above s x y n hrows habove
  | bcd x =>
    obtain ⟨habove, hbytes, rfl⟩ := spanFault_eq_some_iff.mp hcheck
    exact (storeAtIndex_eq s _ _).trans (if_neg (not_or.mpr ⟨Nat.not_le.mpr habove, List.cons_ne_nil _ _⟩))
  | dump x =>
    obtain ⟨habove, hbytes, rfl⟩ := spanFault_eq_some_iff.mp hcheck
    have hlen : 0x1000 < s.i.toNat + (s.regsUpTo x).length := s.regsUpTo_length x ▸ habove
    exact (storeAtIndex_eq s _ _).trans (if_neg (not_or.mpr ⟨Nat.not_le.mpr hlen, s.regsUpTo_ne_nil x⟩))
  | load x =>
    obtain ⟨habove, hbytes, rfl⟩ := spanFault_eq_some_iff.mp hcheck
    exact exec_load_of_above s x (Nat.lt_of_succ_lt_succ habove)
  | _ => cases hcheck

/-- Everything that an instruction can answer: it always has a next state. -/
theorem exec_cases (i : Instr) (s : State) :
    (∃ f, ownFault (encode i) i s = some f ∧ exec i s = .next (s.raised f)) ∨
    (ownFault (encode i) i s = none ∧ exec i s = .next (effect i s)) := by
  cases hcheck : ownFault (encode i) i s with
  | some f => exact .inl ⟨f, rfl, exec_of_ownFault_eq_some hcheck⟩
  | none => exact .inr ⟨rfl, exec_of_ownFault_eq_none hcheck⟩

theorem exec_next_cases (hnext : exec i s = .next t) :
    (∃ f, ownFault (encode i) i s = some f ∧ t = s.raised f) ∨
    (ownFault (encode i) i s = none ∧ t = effect i s) := by
  obtain ⟨f, hcheck, hanswer⟩ | ⟨hcheck, hanswer⟩ := exec_cases i s <;> cases hanswer.symm.trans hnext
  · exact .inl ⟨f, hcheck, rfl⟩
  · exact .inr ⟨hcheck, rfl⟩

end

end Sys2Proof.Machine


/-! What an instruction changes and what can influence it (10_state.md R21 to R34; 20_memory.md R50): the statements about
every instruction at once. -/

namespace Sys2Proof.Machine

/-! ## What an instruction writes -/

section
variable (i : Instr) (s : State)

theorem frameBut_written : FrameBut (mayWrite i) s (written i s) := by
  cases i with
  | clear => exact (frameBut_pix s _).mono (by simp [mayWrite])
  | ret | call => exact (frameBut_stack s _).mono (by simp [mayWrite])
  | setRegVal | addRegVal | setRegReg | orRegReg | andRegReg | xorRegReg | addRegReg | subRegReg | shiftRight
  | subReverseRegReg | shiftLeft | setRegDelay | setRegKey | load => exact (frameBut_v s _).mono (by simp [mayWrite])
  | setRegRand => exact ((frameBut_v s _).trans (frameBut_nextFree _)).mono (by simp [mayWrite])
  | draw => exact ((frameBut_pix s _).trans (frameBut_v _ _)).mono (by simp [mayWrite])
  | setI | addIReg | setISpriteReg => exact (frameBut_i s _).mono (by simp [mayWrite])
  | setDelayReg => exact (frameBut_dt s _).mono (by simp [mayWrite])
  | setSoundReg => exact (frameBut_st s _).mono (by simp [mayWrite])
  | bcd | dump => exact (frameBut_mem s _).mono (by simp [mayWrite])
  | noOp | jump | jumpOffset | skipEqRegVal | skipNeqRegVal | skipEqRegReg | skipNeqRegReg | skipKeyPressed
  | skipKeyNotPressed => exact fun e _ => SameElement.refl e s

theorem pc_mem_mayWrite : Element.pc ∈ mayWrite i := by
  cases i <;> exact List.mem_cons_self

theorem frameBut_effect : FrameBut (mayWrite i) s (effect i s) :=
  ((frameBut_written i s).trans (frameBut_pc _ _)).mono
    (List.append_subset.mpr ⟨List.cons_subset.mpr ⟨pc_mem_mayWrite i, List.nil_subset _⟩, List.Subset.refl _⟩)

theorem regsBut_effect : RegsBut (mayWriteReg i) s (effect i s) := by
  show RegsBut (mayWriteReg i) s (written i s)
  cases i with
  | setRegVal | addRegVal | setRegReg | orRegReg | andRegReg | xorRegReg | setRegRand | setRegDelay | setRegKey =>
    exact regsBut_setReg s (by simp [mayWriteReg]) _
  | draw => exact regsBut_setReg (s.setPix _) (by simp [mayWriteReg]) _
  | addRegReg | subRegReg | subReverseRegReg | shiftRight | shiftLeft =>
    exact (regsBut_setReg s (by simp [mayWriteReg]) _).trans (regsBut_setReg _ (by simp [mayWriteReg]) _)
  | load x =>
    intro r hr
    have hkept : ¬ r ≤ x := by simpa [mayWriteReg] using hr
    exact (s.reg_setRegsFrom_bytesFrom x s.indexBase r).trans (if_neg hkept)
  | _ => exact fun _ _ => rfl

end

/-- Settles O48: where no fault is raised, the elements that the instruction's own updates write. -/
theorem eachInstructionWritesOnlyItsElements : Obligations.EachInstructionWritesOnlyItsElements := by
  unfold Obligations.EachInstructionWritesOnlyItsElements
  intro i s t hnext _ hrunning
  obtain ⟨f, _, rfl⟩ | ⟨_, rfl⟩ := exec_next_cases hnext
  · cases hrunning
  · exact frameBut_effect i s

/-- Settles O49: a fault writes no register. -/
theorem eachInstructionWritesOnlyItsRegisters : Obligations.EachInstructionWritesOnlyItsRegisters := by
  unfold Obligations.EachInstructionWritesOnlyItsRegisters
  intro i s t hnext
  obtain ⟨f, _, rfl⟩ | ⟨_, rfl⟩ := exec_next_cases hnext
  · exact fun _ _ => rfl
  · exact regsBut_effect i s

/-! ## What has no influence on an instruction -/

/-- The state `s`, with the element `e` as `u` holds it: an update of `e` alone is `s.withElementOf e` of itself. -/
def State.withElementOf (s : State) (e : Element) (u : State) : State :=
  match e with
  | .v         => { s with v := u.v }
  | .i         => { s with i := u.i }
  | .pc        => { s with pc := u.pc }
  | .stack     => { s with stack := u.stack }
  | .dt        => { s with dt := u.dt }
  | .st        => { s with st := u.st }
  | .mem       => { s with mem := u.mem }
  | .pix       => { s with pix := u.pix }
  | .halted    => { s with halted := u.halted }
  | .fault     => { s with fault := u.fault }
  | .phase     => { s with phase := u.phase }
  | .key       => { s with key := u.key }
  | .rnd       => { s with rnd := u.rnd }
  | .host      => { s with host := u.host }
  | .freeCount => { s with freeCount := u.freeCount }
  | .cfg       => { s with cfg := u.cfg }

/-- The elements that every instruction may read or write, beside those that `touches` lists: V, pc, and the parameters,
which say what an address that memory does not list reads as. -/
def sharedElements : List Element := [.v, .pc, .cfg]

section
variable {e : Element} {i : Instr} (hshared : e ∉ sharedElements) (htouches : e ∉ touches i) (s u : State)
include hshared htouches

/-- The check of an instruction does not look at an element that the instruction does not touch: the two sides differ
in a field that is never read. -/
theorem ownFault_withElementOf (op : Word) : ownFault op i (s.withElementOf e u) = ownFault op i s := by
  cases e with
  | v | pc | cfg => exact absurd (by decide) hshared
  | i | stack | mem | pix | dt | st | halted | fault | phase | key | rnd | host | freeCount =>
    cases i <;> simp [touches] at htouches <;> rfl

/-- The effect keeps such an element, and does not depend on it. -/
theorem effect_withElementOf : effect i (s.withElementOf e u) = (effect i s).withElementOf e u := by
  cases e with
  | v | pc | cfg => exact absurd (by decide) hshared
  | i | stack | mem | pix | dt | st | halted | fault | phase | key | rnd | host | freeCount =>
    cases i <;> simp [touches] at htouches <;> rfl

/-- An element that an instruction does not touch has no influence on it, apart from the fault's own two. -/
theorem exec_withElementOf {t : State} (hnext : exec i s = .next t)
    (hfault : e ∉ [.halted, .fault] ∨ ownFault (encode i) i s = none) :
    exec i (s.withElementOf e u) = .next (t.withElementOf e u) := by
  obtain ⟨f, hcheck, rfl⟩ | ⟨hcheck, rfl⟩ := exec_next_cases hnext
  · have hraised : (s.withElementOf e u).raised f = (s.raised f).withElementOf e u := by
      cases e with
      | halted | fault =>
        obtain hrecord | hnone := hfault
        · exact absurd (by decide) hrecord
        · cases hcheck.symm.trans hnone
      | _ => rfl
    rw [exec_of_ownFault_eq_some ((ownFault_withElementOf hshared htouches s u _).trans hcheck), hraised]
  · rw [exec_of_ownFault_eq_none ((ownFault_withElementOf hshared htouches s u _).trans hcheck),
      effect_withElementOf hshared htouches]

end

/-- Settles O50: of the instructions, `touches` lists KEY for the three alone. -/
theorem onlyKeyInstructionsReadKey : Obligations.OnlyKeyInstructionsReadKey := by
  unfold Obligations.OnlyKeyInstructionsReadKey
  intro i s t k hpressed hnotPressed hwait hnext
  have htouches : .key ∉ touches i := by
    cases i with
    | skipKeyPressed x => exact absurd rfl (hpressed x)
    | skipKeyNotPressed x => exact absurd rfl (hnotPressed x)
    | setRegKey x => exact absurd rfl (hwait x)
    | _ => simp [touches]
  exact exec_withElementOf (e := .key) (by decide) htouches s { s with key := k } hnext (.inl (by decide))

/-- Settles O51: of the instructions, `touches` lists RND and the counter of free values for SetRegRand alone. -/
theorem onlySetRegRandReadsRandom : Obligations.OnlySetRegRandReadsRandom := by
  unfold Obligations.OnlySetRegRandReadsRandom
  intro i s t r n hrand hnext
  have htouches : .rnd ∉ touches i ∧ .freeCount ∉ touches i := by
    cases i with
    | setRegRand x nn => exact absurd rfl (hrand x nn)
    | _ => simp [touches]
  obtain ⟨hrnd, hfree⟩ := htouches
  have hwithRnd := exec_withElementOf (e := .rnd) (by decide) hrnd s { s with rnd := r } hnext (.inl (by decide))
  exact exec_withElementOf (e := .freeCount) (by decide) hfree _ { s with freeCount := n } hwithRnd (.inl (by decide))

/-- Settles O52: each clause is the same fact about one element; an instruction that ends in a state that is not halted
has raised no fault. -/
theorem untouchedElementsHaveNoInfluence : Obligations.UntouchedElementsHaveNoInfluence := by
  unfold Obligations.UntouchedElementsHaveNoInfluence
  intro i s t hnext
  have hinert {e : Element} (u : State) (hshared : e ∉ sharedElements ++ [.halted, .fault]) (htouches : e ∉ touches i) :
      exec i (s.withElementOf e u) = .next (t.withElementOf e u) := by
    obtain ⟨hshared, hrecord⟩ := not_or.mp (mt List.mem_append.mpr hshared)
    exact exec_withElementOf hshared htouches s u hnext (.inl hrecord)
  have hphase : .phase ∉ touches i := by cases i <;> simp [touches]
  have hrecord : .fault ∉ touches i := by cases i <;> simp [touches]
  refine ⟨fun w => ?i, fun l => ?stack, fun b => ?dt, fun b => ?st, fun m => ?mem, fun p => ?pix, fun ph => ?phase,
    fun f _ hrunning => ?fault⟩
  case i => exact hinert (e := .i) { s with i := w } (by decide)
  case stack => exact hinert (e := .stack) { s with stack := l } (by decide)
  case dt => exact hinert (e := .dt) { s with dt := b } (by decide)
  case st => exact hinert (e := .st) { s with st := b } (by decide)
  case mem => exact hinert (e := .mem) { s with mem := m } (by decide)
  case pix => exact hinert (e := .pix) { s with pix := p } (by decide)
  case phase => exact hinert (e := .phase) { s with phase := ph } (by decide) hphase
  case fault =>
    obtain ⟨_, _, rfl⟩ | ⟨hcheck, _⟩ := exec_next_cases hnext
    · cases hrunning
    · exact exec_withElementOf (e := .fault) (by decide) hrecord s { s with fault := f } hnext (.inr hcheck)

end Sys2Proof.Machine


/-! The step cycle (40_control_flow.md R100 to R104; 60_exceptions.md R221 to R224): what a STEP does where it faults and
where it does not, and the statements about STEP. -/

namespace Sys2Proof.Machine

/-! ## Fetch and decode -/

section
variable {s : State} {i : Instr}

theorem runOne_of_fetch_above (h : s.pc.toNat + 1 > 0xFFF) : runOne s =
    .next (s.faulted .addressFault 0 (BitVec.ofNat 16 (max s.pc.toNat 0x1000))) := by
  rw [runOne, fetch_eq, if_pos h]
  rfl

theorem runOne_of_fetch (h : s.pc.toNat + 1 ≤ 0xFFF) : runOne s = dispatch s.wordAtPc s := by
  rw [runOne, fetch_eq, if_neg (Nat.not_lt.mpr h), State.wordAtPc]

theorem dispatch_of_error {op : Word} {e : DecodeError} (h : decode op = .error e) :
    dispatch op s = .next (s.faulted .decodeError op op) := by
  rw [dispatch, h, State.raise_eq]

theorem dispatch_of_ok {op : Word} (h : decode op = .ok i) : dispatch op s = exec i s := by
  rw [dispatch, h]

/-- The word of an instruction that can fault is its encoding: it ignores no bit of it (log 11). -/
theorem ownFault_encode {op : Word} (hi : decode op = .ok i) : ownFault (encode i) i s = ownFault op i s := by
  obtain ⟨_, hkept⟩ := decode_encodesKept hi
  cases i with
  | call | ret | skipKeyPressed | skipKeyNotPressed | draw | bcd | dump | load =>
    rw [← hkept, keptBits, and_FFFF]
  | _ => rfl

/-! ## Where a STEP faults (60_exceptions.md R224) -/

theorem runOne_of_stepFault_eq_some {f : FaultRecord} (hcheck : stepFault s = some f) :
    runOne s = .next (s.raised f) := by
  unfold stepFault at hcheck
  split at hcheck
  case isTrue habove =>
    cases hcheck
    exact runOne_of_fetch_above habove
  case isFalse hfetch =>
    rw [runOne_of_fetch (Nat.not_lt.mp hfetch)]
    split at hcheck
    case h_1 e he =>
      cases hcheck
      exact dispatch_of_error he
    case h_2 i hi => exact (dispatch_of_ok hi).trans (exec_of_ownFault_eq_some ((ownFault_encode hi).trans hcheck))

/-- No check fails: both bytes at pc lie in memory, they decode, and the instruction has its effect. -/
theorem runOne_of_stepFault_eq_none (hcheck : stepFault s = none) :
    ∃ i, s.pc.toNat + 1 ≤ 0xFFF ∧ decode s.wordAtPc = .ok i ∧ ownFault s.wordAtPc i s = none ∧
      runOne s = .next (effect i s) := by
  unfold stepFault at hcheck
  split at hcheck
  case isTrue => cases hcheck
  case isFalse hfetch =>
    split at hcheck
    case h_1 => cases hcheck
    case h_2 i hi =>
      have hbound := Nat.not_lt.mp hfetch
      exact ⟨i, hbound, hi, hcheck,
        (runOne_of_fetch hbound).trans ((dispatch_of_ok hi).trans (exec_of_ownFault_eq_none hcheck))⟩

/-! ## STEP -/

variable {key : Keys} {rnd : Option Byte}

theorem stepOp_of_running (h : s.halted = false) : stepOp key rnd s = runOne (s.begin key rnd) :=
  if_neg (Bool.eq_false_iff.mp h)

/-- No check of a STEP looks at what its beginning writes: the inputs, and the phase. -/
theorem stepFault_begin : stepFault (s.begin key rnd) = stepFault s := by
  have hcheck : ∀ op i, ownFault op i (s.begin key rnd) = ownFault op i s := fun op i => by
    cases i <;> rfl
  unfold stepFault
  simp only [hcheck]
  rfl

theorem stepOp_of_stepFault_eq_some {f : FaultRecord} (h : s.halted = false) (hcheck : stepFault s = some f) :
    stepOp key rnd s = .next ((s.begin key rnd).raised f) :=
  (stepOp_of_running h).trans (runOne_of_stepFault_eq_some (stepFault_begin.trans hcheck))

theorem stepOp_of_decoded (h : s.halted = false) (hfetch : s.pc.toNat + 1 ≤ 0xFFF) (hi : decode s.wordAtPc = .ok i) :
    stepOp key rnd s = exec i (s.begin key rnd) :=
  (stepOp_of_running h).trans ((runOne_of_fetch (s := s.begin key rnd) hfetch).trans (dispatch_of_ok hi))

end

/-! ## The answers of a STEP -/

/-- `t` is what a STEP of `s` with its inputs presented leaves: the state itself while halted, a fault's state, or an
instruction's effect. -/
inductive StepLeads (s : State) (key : Keys) (rnd : Option Byte) : State → Prop where
  | halted (h : s.halted = true) : StepLeads s key rnd s
  | fault (f : FaultRecord) (h : s.halted = false) (hcheck : stepFault s = some f) :
      StepLeads s key rnd ((s.begin key rnd).raised f)
  | effect (i : Instr) (h : s.halted = false) (hfetch : s.pc.toNat + 1 ≤ 0xFFF)
      (hi : decode s.wordAtPc = .ok i) (hcheck : ownFault s.wordAtPc i (s.begin key rnd) = none) :
      StepLeads s key rnd (effect i (s.begin key rnd))

/-- A STEP always has a next state, and it is one of these. -/
theorem stepOp_leads (key : Keys) (rnd : Option Byte) (s : State) :
    ∃ t, stepOp key rnd s = .next t ∧ StepLeads s key rnd t := by
  by_cases hhalted : s.halted = true
  · exact ⟨s, stepOp_of_halted hhalted key rnd, .halted hhalted⟩
  · have hrunning : s.halted = false := Bool.eq_false_iff.mpr hhalted
    cases hcheck : stepFault s with
    | some f => exact ⟨_, stepOp_of_stepFault_eq_some hrunning hcheck, .fault f hrunning hcheck⟩
    | none =>
      obtain ⟨i, hfetch, hi, hown, hanswer⟩ :=
        runOne_of_stepFault_eq_none (s := s.begin key rnd) (stepFault_begin.trans hcheck)
      exact ⟨_, (stepOp_of_running hrunning).trans hanswer, .effect i hrunning hfetch hi hown⟩

theorem stepLeads_of_stepOp {key : Keys} {rnd : Option Byte} {s t : State} (hnext : stepOp key rnd s = .next t) :
    StepLeads s key rnd t := by
  obtain ⟨u, hanswer, hleads⟩ := stepOp_leads key rnd s
  cases hanswer.symm.trans hnext
  exact hleads

/-! ## The host's list (log 8) -/

theorem step_of_host_nil {s : State} (h : s.host = []) : step s = stepOp s.key none s := by
  rw [step, hostStep, h]

theorem step_of_host_cons {s : State} {op : HostOp} {rest : List HostOp} (h : s.host = op :: rest) :
    step s = perform op { s with host := rest } := by
  rw [step, hostStep, h]

/-! ## What every effect keeps -/

/-- No instruction writes `halted`, the fault record, the phase, the host's operations or the parameters. -/
theorem notMem_mayWrite (i : Instr) : ∀ e ∈ [.halted, .fault, .phase, .host, .cfg], e ∉ mayWrite i := by
  cases i <;> simp [mayWrite]

theorem effect_keeps {e : Element} (he : e ∈ [.halted, .fault, .phase, .host, .cfg]) (i : Instr) (s : State) :
    SameElement e s (effect i s) :=
  frameBut_effect i s e (notMem_mayWrite i e he)

/-! ## The statements -/

/-- Settles O8: the fetched word's instruction runs on the state as the beginning of the STEP leaves it. -/
theorem stepRunsTheDecodedInstruction : Obligations.StepRunsTheDecodedInstruction := by
  unfold Obligations.StepRunsTheDecodedInstruction
  refine fun s i hrunning hfetch hi => ⟨fun hhost => ?free, fun key rnd rest hhost => ?named⟩
  case free =>
    rw [step_of_host_nil hhost]
    exact stepOp_of_decoded hrunning hfetch hi
  case named =>
    rw [step_of_host_cons hhost]
    exact stepOp_of_decoded (s := { s with host := rest }) hrunning hfetch hi

/-- Settles O9: the fetch is the first check. -/
theorem fetchAboveMemoryFaults : Obligations.FetchAboveMemoryFaults := by
  unfold Obligations.FetchAboveMemoryFaults
  intro s key rnd hrunning habove
  exact ⟨_, stepOp_of_stepFault_eq_some hrunning (if_pos habove), faultsWith_raised _ _⟩

/-- Settles O10: the decode is the second check. -/
theorem illegalWordFaults : Obligations.IllegalWordFaults := by
  unfold Obligations.IllegalWordFaults
  intro s key rnd e hrunning hfetch he
  have hcheck : stepFault s = some { code := .decodeError, pc := s.pc, opcode := s.wordAtPc, info := s.wordAtPc } := by
    rw [stepFault, if_neg (Nat.not_lt.mpr hfetch), he]
  exact ⟨_, stepOp_of_stepFault_eq_some hrunning hcheck, faultsWith_raised _ _⟩

/-- Settles O12: a failing check ends the STEP in that fault's state; where none fails, the instruction has its effect,
which leaves `halted`, the record and the phase. -/
theorem stepFaultsExactlyAsListed : Obligations.StepFaultsExactlyAsListed := by
  unfold Obligations.StepFaultsExactlyAsListed
  refine ⟨rfl, fun s key rnd hrunning => ⟨fun f hcheck => ?faults, fun hnone => ?completes⟩⟩
  case faults => exact ⟨_, stepOp_of_stepFault_eq_some hrunning hcheck, rfl, faultsWith_raised _ f⟩
  case completes =>
    obtain ⟨t, hanswer, hleads⟩ := stepOp_leads key rnd s
    cases hleads with
    | halted hhalted => cases hrunning.symm.trans hhalted
    | fault f _ hcheck => cases hnone.symm.trans hcheck
    | effect i =>
      have hhalted : (effect i (s.begin key rnd)).halted = s.halted :=
        effect_keeps (e := .halted) (by decide) i (s.begin key rnd)
      exact ⟨_, hanswer, hhalted.trans hrunning, effect_keeps (e := .fault) (by decide) i (s.begin key rnd),
        effect_keeps (e := .phase) (by decide) i (s.begin key rnd)⟩

end Sys2Proof.Machine


/-! One step of the machine, whatever the host invokes (10_state.md R35; 70_reset_and_hazards.md R251): every operation's
next state, the invariant over all of them, and the statements about steps and runs. -/

namespace Sys2Proof.Machine

/-! ## What an operation can answer -/

/-- `t` is what an operation of the host on `s` leaves. -/
inductive OpLeads (s : State) : State → Prop where
  | step {t : State} (key : Keys) (rnd : Option Byte) (h : StepLeads s key rnd t) : OpLeads s t
  | init : OpLeads s (initOp s)
  | loadRom (bytes : List Byte) (hphase : s.phase = .initDone) (hlen : bytes.length ≤ 3584) :
      OpLeads s { s.storeBytes 0x200 bytes with phase := .loaded }
  | tick : OpLeads s (tickOp s)

/-- The operation is a LOAD_ROM that R251 refuses, by the name `r`. -/
def RefusedRom (s : State) (op : HostOp) (r : Refusal) : Prop :=
  (∃ bytes, op = .loadRom bytes ∧ (s.phase ≠ .initDone ∨ bytes.length > 3584)) ∧
  (r = .loadRomOutsideInitDone ∨ r = .loadRomTooLong)

theorem loadRomOp_refused {s : State} {bytes : List Byte} (h : s.phase ≠ .initDone ∨ bytes.length > 3584) :
    ∃ r, loadRomOp bytes s = .refused r ∧ RefusedRom s (.loadRom bytes) r := by
  by_cases hphase : s.phase = .initDone
  · have hlong : bytes.length > 3584 := h.resolve_left (not_not_intro hphase)
    exact ⟨_, (if_neg (not_not_intro hphase)).trans (if_pos hlong), ⟨bytes, rfl, h⟩, .inr rfl⟩
  · exact ⟨_, if_pos hphase, ⟨bytes, rfl, h⟩, .inl rfl⟩

/-- Everything that an operation can answer: a next state, or the refusal of a LOAD_ROM. -/
theorem perform_cases (op : HostOp) (s : State) :
    (∃ t, perform op s = .next t ∧ OpLeads s t) ∨ ∃ r, perform op s = .refused r ∧ RefusedRom s op r := by
  cases op with
  | init => exact .inl ⟨_, rfl, .init⟩
  | tick => exact .inl ⟨_, rfl, .tick⟩
  | step key rnd =>
    obtain ⟨t, hanswer, hleads⟩ := stepOp_leads key (some rnd) s
    exact .inl ⟨t, hanswer, .step key _ hleads⟩
  | loadRom bytes =>
    by_cases hrefused : s.phase ≠ .initDone ∨ bytes.length > 3584
    · exact .inr (loadRomOp_refused hrefused)
    · obtain ⟨hphase, hlen⟩ := not_or.mp hrefused
      have hallowed : s.phase = .initDone ∧ bytes.length ≤ 3584 := ⟨not_not.mp hphase, Nat.not_lt.mp hlen⟩
      exact .inl ⟨_, (loadRomOp_eq_next_iff bytes s _).mpr ⟨hallowed.1, hallowed.2, rfl⟩,
        .loadRom bytes hallowed.1 hallowed.2⟩

/-- Everything that a step can answer. The operation that it performs, if one is listed, is off the list. -/
theorem step_cases (s : State) :
    (∃ t, step s = .next t ∧ OpLeads { s with host := s.host.tail } t) ∨
    ∃ op rest r, s.host = op :: rest ∧ step s = .refused r ∧ RefusedRom s op r := by
  cases hhost : s.host with
  | nil =>
    have hsame : { s with host := [] } = s := by rw [← hhost]
    obtain ⟨t, hanswer, hleads⟩ := stepOp_leads s.key none s
    refine .inl ⟨t, (step_of_host_nil hhost).trans hanswer, .step s.key none ?_⟩
    rwa [List.tail_nil, hsame]
  | cons op rest =>
    rw [step_of_host_cons hhost, List.tail_cons]
    obtain hnext | ⟨r, hanswer, hrefused⟩ := perform_cases op { s with host := rest }
    · exact .inl hnext
    · exact .inr ⟨op, rest, r, rfl, hanswer, hrefused⟩

theorem step_leads {s t : State} (hnext : step s = .next t) : OpLeads { s with host := s.host.tail } t := by
  obtain ⟨u, hanswer, hleads⟩ | ⟨_, _, _, _, hanswer, _⟩ := step_cases s <;> cases hanswer.symm.trans hnext
  exact hleads

theorem OpLeads.host_cfg {s t : State} (h : OpLeads s t) : t.host = s.host ∧ t.cfg = s.cfg := by
  cases h with
  | init | loadRom | tick => exact ⟨rfl, rfl⟩
  | step key rnd h =>
    cases h with
    | halted | fault => exact ⟨rfl, rfl⟩
    | effect i =>
      exact ⟨effect_keeps (e := .host) (by decide) i (s.begin key rnd),
        effect_keeps (e := .cfg) (by decide) i (s.begin key rnd)⟩

/-! ## The statements about one step -/

/-- Settles O13: the refusals of LOAD_ROM are the only answers that are no next state. -/
theorem onlyLoadRomIsRefused : Obligations.OnlyLoadRomIsRefused := by
  unfold Obligations.OnlyLoadRomIsRefused
  intro s
  obtain ⟨t, hanswer, _⟩ | ⟨op, rest, r, hhost, _, ⟨bytes, rfl, hwhy⟩, _⟩ := step_cases s
  · exact .inl ⟨t, hanswer⟩
  · exact .inr ⟨bytes, rest, hhost, hwhy⟩

/-- Settles O14: no operation writes the host's list. -/
theorem hostOperationsComeInOrder : Obligations.HostOperationsComeInOrder := by
  unfold Obligations.HostOperationsComeInOrder
  refine fun s => ⟨step_of_host_nil, fun op rest hhost => ⟨step_of_host_cons hhost, fun t hnext => ?_⟩⟩
  rw [(step_leads hnext).host_cfg.1, hhost, List.tail_cons]

/-- Settles O16: the image is one run of writes from 0x200 on, and both tests of LOAD_ROM come before it. -/
theorem loadRomCopiesTheImageOrIsRefused : Obligations.LoadRomCopiesTheImageOrIsRefused := by
  unfold Obligations.LoadRomCopiesTheImageOrIsRefused
  refine fun s bytes => ⟨fun hphase hlen => ?copies, fun hwhy => ?refused⟩
  case copies =>
    refine ⟨_, (loadRomOp_eq_next_iff bytes s _).mpr ⟨hphase, hlen, rfl⟩, fun k hk => ?image, fun a ha => ?rest, rfl,
      fun e he => ?frame⟩
    case image =>
      refine (s.byteAt_storeBytes _ _ bytes).trans ?_
      simp only [Nat.le_add_right, Nat.add_lt_add_iff_left, hk, and_self, dite_true, Nat.add_sub_cancel_left]
    case rest => exact (s.byteAt_storeBytes _ a bytes).trans (dif_neg ha)
    case frame =>
      have hsame : SameElement e s s := SameElement.refl e s
      cases e with
      | mem | phase => exact absurd (by decide) he
      | _ => exact hsame
  case refused =>
    obtain ⟨r, hanswer, _⟩ := loadRomOp_refused hwhy
    exact ⟨r, hanswer⟩

/-- Settles O53: no operation writes the parameters. -/
theorem stepKeepsTheParameters : Obligations.StepKeepsTheParameters := by
  unfold Obligations.StepKeepsTheParameters
  exact fun s t hnext => (step_leads hnext).host_cfg.2

/-! ## The bound of the pc (40_control_flow.md R112) -/

section
variable {s : State} (hfetch : s.pc.toNat + 1 ≤ 0xFFF)
include hfetch

theorem pc_add_toNat {k : Nat} (hk : k ≤ 4) : (s.pc + BitVec.ofNat 16 k).toNat = s.pc.toNat + k := by
  rw [BitVec.toNat_add, BitVec.toNat_ofNat]
  omega

theorem State.skipPc_le (taken : Bool) : (s.skipPc taken).toNat ≤ 0x10FE := by
  have htwo : (s.pc + 2).toNat = s.pc.toNat + 2 := pc_add_toNat hfetch (by decide)
  have hfour : (s.pc + 4).toNat = s.pc.toNat + 4 := pc_add_toNat hfetch (by decide)
  unfold State.skipPc
  split <;> omega

theorem targetPc_le (hreturns : ∀ a ∈ s.stack, a.toNat ≤ 0x1000) (i : Instr) : (targetPc i s).toNat ≤ 0x10FE := by
  have hadvance : (s.pc + 2).toNat ≤ 0x10FE := State.skipPc_le hfetch false
  cases i with
  | jump nnn | call nnn =>
    have hbound := nnn.isLt
    rw [targetPc, addressOf_toNat]
    omega
  | jumpOffset nnn =>
    have hbound := nnn.isLt
    have hV0 := (s.reg 0).isLt
    rw [targetPc, addressOf_add_zext16_toNat]
    omega
  | ret =>
    rw [targetPc]
    cases hlast : s.stack.getLast? with
    | none => decide
    | some a => exact (hreturns a (List.mem_of_getLast? hlast)).trans (by decide)
  | skipEqRegVal | skipNeqRegVal | skipEqRegReg | skipNeqRegReg | skipKeyPressed | skipKeyNotPressed =>
    exact State.skipPc_le hfetch _
  | setRegKey =>
    rw [targetPc]
    split <;> omega
  | _ => exact hadvance

end

/-- Settles O54: an effect sets the pc to its target; the other two ends of a STEP are halted ones. -/
theorem pcStaysBelow10FF : Obligations.PcStaysBelow10FF := by
  unfold Obligations.PcStaysBelow10FF
  intro s t key rnd hrunning hreturns hnext hstays
  cases stepLeads_of_stepOp hnext with
  | halted h => cases h.symm.trans hrunning
  | fault f => cases hstays
  | effect i _ hfetch => exact targetPc_le (s := s.begin key rnd) hfetch hreturns i

/-! ## The invariant -/

section
variable {s : State} (hinv : s.Inv)
include hinv

/-- The invariant speaks of the parameters, memory, the pc, the stack, `halted` and the phase alone. -/
theorem State.Inv.of_same {t : State} (hcfg : t.cfg = s.cfg) (hmem : t.mem = s.mem) (hpc : t.pc = s.pc)
    (hstack : t.stack = s.stack) (hphase : t.halted = true → t.phase = .running) : t.Inv where
  params    := hcfg ▸ hinv.params
  memory    := by rw [hmem, hcfg]; exact hinv.memory
  pcBound   := hpc ▸ hinv.pcBound
  returns   := hstack ▸ hinv.returns
  depth     := by rw [hcfg, hstack]; exact hinv.depth
  haltPhase := hphase

variable {i : Instr} {op : Word} (hcheck : ownFault op i s = none)
include hcheck

/-- A store that raises no fault lies in memory, so it keeps the canonical form. -/
theorem written_mem_wf : (written i s).mem.wf s.cfg = true := by
  cases i with
  | bcd x =>
    have hfits := (spanFault_eq_none_iff.mp hcheck).resolve_right (by decide)
    exact Memory.wf_store _ hfits hinv.memory
  | dump x =>
    have hfits := (spanFault_eq_none_iff.mp hcheck).resolve_right (Nat.succ_ne_zero _)
    exact Memory.wf_store _ (s.regsUpTo_length x ▸ hfits) hinv.memory
  | _ => exact hinv.memory

theorem written_returns (hfetch : s.pc.toNat + 1 ≤ 0xFFF) : ∀ a ∈ (written i s).stack, a.toNat ≤ 0x1000 := by
  cases i with
  | call nnn =>
    intro a ha
    obtain ha | ha := List.mem_append.mp ha
    · exact hinv.returns a ha
    · have htwo : (s.pc + 2).toNat = s.pc.toNat + 2 := pc_add_toNat hfetch (by decide)
      rw [List.mem_singleton.mp ha, htwo]
      omega
  | ret => exact fun a ha => hinv.returns a (List.mem_of_mem_dropLast ha)
  | _ => exact hinv.returns

/-- A Call that raises no fault finds the stack below its limit. -/
theorem written_depth : ∀ n, s.cfg.stackLimit = some n → (written i s).stack.length ≤ n := by
  intro n hlimit
  have hdepth : s.stack.length ≤ n := hinv.depth n hlimit
  cases i with
  | call nnn =>
    have hroom : n ≠ s.stack.length := by simpa [ownFault, hlimit] using hcheck
    rw [written, State.push_stack, List.length_append, List.length_singleton]
    omega
  | ret =>
    rw [written, State.pop_stack, List.length_dropLast]
    omega
  | _ => exact hdepth

theorem effect_inv (hfetch : s.pc.toNat + 1 ≤ 0xFFF) : (effect i s).Inv := by
  have hcfg : (effect i s).cfg = s.cfg := effect_keeps (e := .cfg) (by decide) i s
  have hhalted : (effect i s).halted = s.halted := effect_keeps (e := .halted) (by decide) i s
  have hphase : (effect i s).phase = s.phase := effect_keeps (e := .phase) (by decide) i s
  constructor
  case params => exact hcfg ▸ hinv.params
  case memory => exact hcfg ▸ written_mem_wf hinv hcheck
  case pcBound => exact targetPc_le hfetch hinv.returns i
  case returns => exact written_returns hinv hcheck hfetch
  case depth => exact hcfg ▸ written_depth hinv hcheck
  case haltPhase => rw [hhalted, hphase]; exact hinv.haltPhase

end

theorem initOp_inv {s : State} (hparams : s.cfg.wf = true) : (initOp s).Inv where
  params    := hparams
  memory    := Memory.wf_nil _
  pcBound   := show (0x200#16).toNat ≤ 0x10FE by decide
  returns   := fun _ h => absurd h List.not_mem_nil
  depth     := fun n _ => Nat.zero_le n
  haltPhase := fun h => absurd h Bool.false_ne_true

theorem StepLeads.inv {s t : State} {key : Keys} {rnd : Option Byte} (hinv : s.Inv) (h : StepLeads s key rnd t) :
    t.Inv := by
  have hbegin : (s.begin key rnd).Inv := hinv.of_same rfl rfl rfl rfl fun _ => rfl
  cases h with
  | halted => exact hinv
  | fault f => exact hinv.of_same rfl rfl rfl rfl fun _ => rfl
  | effect i _ hfetch _ hcheck => exact effect_inv hbegin hcheck hfetch

theorem OpLeads.inv {s t : State} (hinv : s.Inv) (h : OpLeads s t) : t.Inv := by
  cases h with
  | step key rnd h => exact h.inv hinv
  | init => exact initOp_inv hinv.params
  | tick => exact hinv.of_same rfl rfl rfl rfl hinv.haltPhase
  | loadRom bytes hphase hlen =>
    have hrunning : s.halted ≠ true := fun h => by cases hphase.symm.trans (hinv.haltPhase h)
    exact ⟨hinv.params, Memory.wf_store bytes (by omega) hinv.memory, hinv.pcBound, hinv.returns, hinv.depth,
      fun h => absurd h hrunning⟩

theorem step_inv {s t : State} (hinv : s.Inv) (hnext : step s = .next t) : t.Inv := by
  have hrest : State.Inv { s with host := s.host.tail } := hinv.of_same rfl rfl rfl rfl hinv.haltPhase
  exact (step_leads hnext).inv hrest

/-! ## The statements about the invariant -/

/-- Settles O56: STEP keeps the invariant where it faults and where the instruction has its effect, and so do the host's
other operations. -/
theorem stepKeepsTheInvariant : Obligations.StepKeepsTheInvariant := by
  unfold Obligations.StepKeepsTheInvariant
  exact fun s t hinv hnext => step_inv hinv hnext

theorem run_succ_of_next {s t : State} (n : Nat) (h : step s = .next t) : core.run (n + 1) s = core.run n t := by
  have hstep : core.step s = .next t := h
  simp only [Host.Core.run, hstep]

theorem run_succ_of_refused {s : State} {r : Refusal} (n : Nat) (h : step s = .refused r) :
    core.run (n + 1) s = .refused r := by
  have hstep : core.step s = .refused r := h
  simp only [Host.Core.run, hstep]

/-- Settles O57, by induction on the number of steps: the first step keeps the invariant, or it is a refused LOAD_ROM. -/
theorem everyRunKeepsTheInvariant : Obligations.EveryRunKeepsTheInvariant := by
  unfold Obligations.EveryRunKeepsTheInvariant
  intro n
  induction n with
  | zero => exact fun s hinv => .inl ⟨s, rfl, hinv⟩
  | succ n ih =>
    intro s hinv
    obtain ⟨t, hnext, _⟩ | ⟨_, _, r, _, hanswer, _, hname⟩ := step_cases s
    · rw [run_succ_of_next n hnext]
      exact ih t (step_inv hinv hnext)
    · exact .inr ⟨r, run_succ_of_refused n hanswer, hname⟩

/-- Settles O55: after INIT memory and the stack are empty lists. -/
theorem startMeetsTheInvariant : Obligations.StartMeetsTheInvariant := by
  unfold Obligations.StartMeetsTheInvariant
  exact fun c hparams =>
    (initOp_inv (s := State.start c) hparams).of_same rfl rfl rfl rfl fun h => absurd h Bool.false_ne_true

end Sys2Proof.Machine


/-! Instructions in a row (40_control_flow.md R111; 20_memory.md R65; 43_index_memory.md R170; 45_display.md R206), and a
word that the host places (log 9): what one step leaves for the next. -/

namespace Sys2Proof.Machine

/-! ## Two instructions in a row -/

/-- Settles O24: Ret pops the entry that Call pushed. -/
theorem retAfterCallLandsAfterTheCall : Obligations.RetAfterCallLandsAfterTheCall := by
  unfold Obligations.RetAfterCallLandsAfterTheCall
  intro s nnn hroom
  have hpushed : State.stack { s.push (s.pc + 2) with pc := addressOf nnn } = s.stack ++ [s.pc + 2] := rfl
  exact ⟨_, _, exec_call_of_not_full s nnn hroom, exec_ret_of_append hpushed, rfl, rfl, frameBut_pc s _⟩

/-- Settles O40: the Dump leaves I, so the Load reads the bytes that it wrote; the other registers are written by neither. -/
theorem loadAfterDumpRestoresTheRegisters : Obligations.LoadAfterDumpRestoresTheRegisters := by
  unfold Obligations.LoadAfterDumpRestoresTheRegisters
  intro s x hfits
  obtain ⟨t, hdump, hstored, _, _, hdumpFrame⟩ := (dumpStoresTheRegisters s x).1 hfits
  have hbase : t.indexBase = s.indexBase := congrArg BitVec.toNat (hdumpFrame .i (by decide))
  obtain ⟨u, hload, hloaded, _, _⟩ := (loadReadsTheRegisters t x).1 (hbase ▸ hfits)
  refine ⟨t, u, hdump, hload, fun r => ?_⟩
  rw [hloaded, hbase]
  split
  case isTrue hr => exact hstored r hr
  case isFalse => exact hdumpFrame .v (by decide) r

/-- Settles O41: the first two bytes of the Dump lie at the pc that it leaves. -/
theorem dumpIsSeenByTheNextFetch : Obligations.DumpIsSeenByTheNextFetch := by
  unfold Obligations.DumpIsSeenByTheNextFetch
  intro s x hx hfits hi
  obtain ⟨t, hdump, hstored, _, hpc, _⟩ := (dumpStoresTheRegisters s x).1 hfits
  have hbase : t.pc.toNat = s.indexBase := congrArg BitVec.toNat (hpc.trans hi.symm)
  have hfirst : t.byteAt s.indexBase = s.reg 0 := hstored 0 (Fin.zero_le x)
  have hsecond : t.byteAt (s.indexBase + 1) = s.reg 1 := hstored 1 hx
  exact ⟨t, hdump, by rw [State.wordAtPc, hbase, hfirst, hsecond]⟩

/-! ## The same draw twice (45_display.md R206) -/

theorem spriteHits_of_same {s t : State} {x y : Reg} (hx : t.reg x = s.reg x) (hy : t.reg y = s.reg y) (hi : t.i = s.i)
    (hmem : ∀ a, t.byteAt a = s.byteAt a) (n : Nat) (c : Fin 64) (r : Fin 32) :
    spriteHits t x y n c r ↔ spriteHits s x y n c r := by
  simp only [spriteHits, hx, hy, hi, hmem]

/-- Settles O46: both draws toggle the same pixels, and the second one finds on those that the first one turned on. -/
theorem drawTwiceRestoresTheDisplay : Obligations.DrawTwiceRestoresTheDisplay := by
  unfold Obligations.DrawTwiceRestoresTheDisplay
  intro s t x y n hfits hnext hx hy
  obtain ⟨t', hnext', hfirst, _, _, _, _, hframe⟩ := (drawTogglesTheSpritesPixels s x y n).1 hfits
  cases hnext'.symm.trans hnext
  have hi : t.i = s.i := hframe .i (by decide)
  have hhits : ∀ c r, spriteHits t x y n.val c r ↔ spriteHits s x y n.val c r :=
    spriteHits_of_same hx hy hi (hframe .mem (by decide)) n.val
  have hfits' : n.val = 0 ∨ t.indexBase + n.val ≤ 0x1000 := by rwa [State.indexBase, hi]
  obtain ⟨u, hagain, hsecond, hon, hoff, _⟩ := (drawTogglesTheSpritesPixels t x y n).1 hfits'
  simp only [hhits] at hsecond hon hoff
  have hturnedOn : (∃ c r, spriteHits s x y n.val c r ∧ t.pixel c r = true) ↔
      ∃ c r, s.pixel c r = false ∧ t.pixel c r = true := by
    refine exists_congr fun c => exists_congr fun r => and_congr_left fun hlit => ?_
    obtain ⟨htoggled, hkept⟩ := hfirst c r
    by_cases hhit : spriteHits s x y n.val c r
    · simpa [hhit] using (htoggled hhit).symm.trans hlit
    · simpa [hhit] using (hkept hhit).symm.trans hlit
  refine ⟨u, hagain, fun c r => ?pixels, ?flag⟩
  case pixels =>
    obtain ⟨htoggled, hkept⟩ := hfirst c r
    obtain ⟨htoggledAgain, hkeptAgain⟩ := hsecond c r
    by_cases hhit : spriteHits s x y n.val c r
    · rw [htoggledAgain hhit, htoggled hhit, Bool.not_not]
    · exact (hkeptAgain hhit).trans (hkept hhit)
  case flag =>
    rw [← hturnedOn]
    refine ⟨fun hset => ?_, hon⟩
    by_contra hnone
    exact absurd ((hoff hnone).symm.trans hset) (by decide)

/-! ## A placed word (log 9) -/

/-- A word as the table gives it: its number, below 2^16. -/
theorem ofNat_toNat_mod (op : Word) : BitVec.ofNat 16 (op.toNat % 2 ^ 16) = op := by
  rw [Nat.mod_eq_of_lt op.isLt, BitVec.ofNat_toNat, BitVec.setWidth_eq]

theorem decodeTableWord_of_decode {op : Word} {i : Instr} (hi : decode op = .ok i) :
    decodeTableWord 16 op.toNat = some i := by
  simp only [decodeTableWord, ofNat_toNat_mod, decodeBytes, opcodeOfBytes_bytes, hi]

section
variable (s : State) (op : Word)

/-- Where the host places the word: a pc that can fetch stays (log 9). -/
def State.placedPc : Word := if s.pc.toNat + 1 > 0xFFF then 0x200 else s.pc

theorem State.placedPc_fetches : s.placedPc.toNat + 1 ≤ 0xFFF := by
  unfold State.placedPc
  split
  · decide
  · omega

theorem State.withFetchWord_byteAt (a : Nat) : (s.withFetchWord 16 op.toNat).byteAt a =
    (s.storeBytes s.placedPc.toNat [firstByte op, secondByte op]).byteAt a := by
  rw [State.withFetchWord, ofNat_toNat_mod]
  rfl

theorem State.withFetchWord_wordAtPc : (s.withFetchWord 16 op.toNat).wordAtPc = op := by
  have hpc : (s.withFetchWord 16 op.toNat).pc = s.placedPc := rfl
  simp [State.wordAtPc, hpc, State.withFetchWord_byteAt, State.byteAt_storeBytes]

end

/-- Settles O58: the placed word is what the next fetch reads, and the STEP begins with KEY as it stands. -/
theorem placedWordRunsNext : Obligations.PlacedWordRunsNext := by
  unfold Obligations.PlacedWordRunsNext
  intro s op i hi
  refine ⟨decodeTableWord_of_decode hi, (s.withFetchWord 16 op.toNat).begin s.key none, ?runs, ?frame,
    fun hfetch => ?stays⟩
  case runs =>
    have hword : decode (s.withFetchWord 16 op.toNat).wordAtPc = .ok i := by rw [s.withFetchWord_wordAtPc, hi]
    exact (step_of_host_nil rfl).trans (stepOp_of_decoded rfl s.placedPc_fetches hword)
  case frame =>
    intro e he
    have hsame : SameElement e s s := SameElement.refl e s
    cases e with
    | mem | pc | halted | phase | rnd | host => exact absurd (by decide) he
    | _ => exact hsame
  case stays =>
    have hpc : s.placedPc = s.pc := if_neg (Nat.not_lt.mpr hfetch)
    refine ⟨hpc, fun a ha => ?_⟩
    rw [State.begin_byteAt, s.withFetchWord_byteAt, hpc]
    exact (s.byteAt_storeBytes s.pc.toNat a _).trans (dif_neg ha)

end Sys2Proof.Machine
